-- ==== Sys2Proof/Word.lean ====
section
/-! DEFINITION. The value types of spec/00_scope.md R10: words, bytes and the byte counter. -/
namespace Sys2Proof

/-- A word: a 32-bit unsigned integer (R10). Addition is modulo 2^32 (R114). -/
abbrev Word := BitVec 32

/-- A byte: an 8-bit unsigned integer (R10). -/
abbrev Byte := BitVec 8

/-- The byte counter's value: 64 bits, addition modulo 2^64 (R10, R22). -/
abbrev Count := BitVec 64

end Sys2Proof
end

