-- ==== Sys2Proof/Syntax.lean ====
section
/-! DEFINITION. The five commands of the engine, one constructor for each row of spec/opcode_table.json. -/
namespace Sys2Proof

/-- A command (30_encoding.md R83). The operands are those of R82. -/
inductive Instr where
  /-- `NOP` (41_commands.md R155). -/
  | nop
  /-- `INIT` (R156). -/
  | init
  /-- `ABSORB.B #imm8`: the byte of field BYTE (R157). -/
  | absorbB (imm8 : Byte)
  /-- `ABSORB.W #n`: the number of bytes, field NB plus 1 (R158). -/
  | absorbW (n : Nat)
  /-- `FINALIZE` (R159). -/
  | finalize
  deriving DecidableEq, Repr

end Sys2Proof
end

