-- ==== Sys2Proof/WellFormed.lean ====
section
/-! DEFINITION. Which commands have an encoding: the operand ranges of spec/30_encoding.md R89. -/
namespace Sys2Proof

/-- The operand ranges: `n` of ABSORB.W is 1 to 4 (R82, R89); every byte is an operand of ABSORB.B. -/
def Instr.wf : Instr → Bool
  | .nop => true
  | .init => true
  | .absorbB _ => true
  | .absorbW n => decide (1 ≤ n) && decide (n ≤ 4)
  | .finalize => true

end Sys2Proof
end

