-- ==== Sys2Proof/Decode.lean ====
section
/-! DEFINITION. The encoding of spec/30_encoding.md: the fields of CMD32, the match patterns, the total decoder and
the encoder. A command is one whole 32-bit word of the bus; no byte of it has an address (R80, 20_memory.md R63). -/
namespace Sys2Proof

/-- Field OP, bits 3:0 (R81). -/
def opField (w : Word) : BitVec 4 := w.extractLsb' 0 4

/-- Field NB, bits 5:4 (R81). -/
def nbField (w : Word) : BitVec 2 := w.extractLsb' 4 2

/-- Field BYTE, bits 15:8 (R81). -/
def byteField (w : Word) : Byte := w.extractLsb' 8 8

/-- One row of the table of R84: a word selects the command when `w & mask = pattern`. -/
structure Row where
  pattern : Word
  mask : Word
  deriving DecidableEq, Repr

/-- The row selects the word: it matches the row's pattern (R84). -/
def Row.selects (r : Row) (w : Word) : Bool := w &&& r.mask == r.pattern

/-- The row of R84 that a command belongs to. -/
def Instr.row : Instr → Row
  | .nop => ⟨0x00000000#32, 0xFFFFFFFF#32⟩
  | .init => ⟨0x00000001#32, 0xFFFFFFFF#32⟩
  | .absorbB _ => ⟨0x00000002#32, 0xFFFF00FF#32⟩
  | .absorbW _ => ⟨0x00000003#32, 0xFFFFFFCF#32⟩
  | .finalize => ⟨0x00000004#32, 0xFFFFFFFF#32⟩

/-- The five rows of R84, in the table's order. -/
def rows : List Row :=
  [⟨0x00000000#32, 0xFFFFFFFF#32⟩, ⟨0x00000001#32, 0xFFFFFFFF#32⟩, ⟨0x00000002#32, 0xFFFF00FF#32⟩,
   ⟨0x00000003#32, 0xFFFFFFCF#32⟩, ⟨0x00000004#32, 0xFFFFFFFF#32⟩]

/-- Why a word is ILLEGAL (R86). The engine records the same cause, ILLEGAL_CMD, for both. -/
inductive Illegal where
  /-- OP is 0x5 to 0xF. -/
  | reservedOp
  /-- OP is 0x0 to 0x4 and a bit outside the command's fields is not 0. -/
  | nonzeroUnusedBits
  deriving DecidableEq, Repr

/-- The decode function of R85, total on every 32-bit word; an illegal word is rejected by name. -/
def decode (w : Word) : Except Illegal Instr :=
  if w = 0x00000000#32 then .ok .nop
  else if w = 0x00000001#32 then .ok .init
  else if w &&& 0xFFFF00FF#32 = 0x00000002#32 then .ok (.absorbB (byteField w))
  else if w &&& 0xFFFFFFCF#32 = 0x00000003#32 then .ok (.absorbW ((nbField w).toNat + 1))
  else if w = 0x00000004#32 then .ok .finalize
  else if 5 ≤ (opField w).toNat then .error .reservedOp
  else .error .nonzeroUnusedBits

/-- The word of a command, from the table of R89. -/
def encode : Instr → Word
  | .nop => 0x00000000#32
  | .init => 0x00000001#32
  | .absorbB imm8 => 0x00000002#32 ||| (imm8.setWidth 32 <<< 8)
  | .absorbW n => 0x00000003#32 ||| (BitVec.ofNat 32 (n - 1) <<< 4)
  | .finalize => 0x00000004#32

/-- The decoder on an instruction's bits numbered as spec/opcode_table.json numbers them; the bits above `nbits` are 0
(log 17). -/
def decodeTableWord (nbits w : Nat) : Option Instr :=
  match decode (BitVec.ofNat 32 (w % 2 ^ nbits)) with
  | .ok i => some i
  | .error _ => none

end Sys2Proof
end

