-- ==== Sys2Proof/Config.lean ====
section
/-! DEFINITION. What the spec leaves to the platform or leaves free (spec/00_scope.md R8). No value has a body, so a
claim holds whatever it is. -/
namespace Sys2Proof

/-- `ENGINE_BASE` divided by 64: the base is a multiple of 64 and otherwise OPEN (20_memory.md R50; log 2). -/
opaque Config.engineBlock : Nat

/-- `ENGINE_BASE`, the platform address of the register window (R50). -/
def Config.engineBase : Nat := 64 * Config.engineBlock

/-- The free part of `T_CMD` (70_reset_and_hazards.md R226): before the sequencer's next internal step, how many host
turns may come, for the choice numbered by its argument. Any finite number (log 4). -/
opaque Config.hostTurns : Nat → Nat

/-- Which of several bus masters moves next, for the choice numbered by its argument: every interleaving of whole
accesses is admitted (20_memory.md R72; log 5). -/
opaque Config.arbiter : Nat → Nat

end Sys2Proof
end

