-- ==== Sys2Proof/Machine/State.lean ====
section
/-! DEFINITION. The state of spec/10_state.md as plain data: the engine's committed and internal state, the bus masters,
the two ways a step can stop, and the state after reset. -/
namespace Sys2Proof.Machine

/-- Lifecycle LIFE (R25). The field's fourth value is never produced (93_implementation_defined.md U15; log 20). -/
inductive Life where
  | idle
  | active
  | finalized
  deriving DecidableEq, Repr

/-- Cause of the first usage error (60_exceptions.md R181). Codes 4 to 15 are never raised (U14; log 20). -/
inductive Cause where
  | none
  | illegalCmd
  | absorbNotActive
  | finalizeNotActive
  deriving DecidableEq, Repr

/-- The pending command with the operand bytes captured at its acceptance (R30). -/
structure Pending where
  cmd : Instr
  bytes : List Byte
  deriving DecidableEq, Repr

/-- The working variables a..h of a compression (R21). -/
structure WorkingVars where
  a : Word
  b : Word
  c : Word
  d : Word
  e : Word
  f : Word
  g : Word
  h : Word
  deriving DecidableEq, Repr

/-- What started a compression: the absorb path (41_commands.md R142), or the padding in PAD_COMPRESS_1 or
PAD_COMPRESS_2 (R148). -/
inductive Caller where
  | absorb
  | pad1
  | pad2
  deriving DecidableEq, Repr

/-- The three parts of the round pipeline (40_compression.md R117). -/
inductive Stage where
  | load
  | round
  | add
  deriving DecidableEq, Repr

/-- The phase of the sequencer (10_state.md R32) with the padding states of 41_commands.md R148. -/
inductive Phase where
  | idle
  | absorbing
  | compressing (caller : Caller) (stage : Stage)
  | pad80
  | padZeroTail
  | padZero
  | padLen
  | done
  deriving DecidableEq, Repr

/-- The sequencer's internal state: phase, the bytes of a pending absorb still to come (R32), the internal copies of H,
count and the block buffer (R31; log 24), the working variables (R21), the message schedule (R24), the round index `t`
and the padding cursor `p` (R32). -/
structure Sequencer where
  phase : Phase
  rest : List Byte
  workH : Vector Word 8
  workCount : Count
  workBuf : Vector Byte 64
  vars : WorkingVars
  w : Vector Word 64
  t : Nat
  p : Nat
  deriving DecidableEq, Repr

/-- One bus operation of a host program (30_encoding.md R90), or a change of the reset input (70_reset_and_hazards.md
R210; log 9). `off` is the offset in the 64-byte window, `width` the access width in bytes. -/
inductive HostOp where
  /-- `MemWrite(ENGINE_BASE + off, width, value)`. -/
  | write (off : BitVec 6) (width : Nat) (value : Word)
  /-- `v<dst> <- MemRead(ENGINE_BASE + off, width)`. -/
  | read (off : BitVec 6) (width : Nat) (dst : Nat)
  /-- `POLL`: a 32-bit read repeated until `tmp & mask = value`. -/
  | poll (off : BitVec 6) (mask value : Word)
  /-- The reset input is asserted; it stays so until it is released. -/
  | assertReset
  /-- The reset input is released. -/
  | releaseReset
  deriving DecidableEq, Repr

/-- A bus master: the operations it has still to perform, and its host variables `v<n>` by number, rising, without
those never assigned (R90; log 15). -/
structure Master where
  program : List HostOp
  vars : List (Nat × Word)
  deriving DecidableEq, Repr

/-- A CMD write that has been offered and not yet accepted (41_commands.md R140), and the master whose bus write is
held for it (70_reset_and_hazards.md R220). -/
structure HeldWrite where
  master : Nat
  word : Word
  deriving DecidableEq, Repr

/-- The machine: one engine, the bus masters that reach it, and the model's two counters for free choices. -/
structure State where
  /-- Digest state H[0..7] (R20). -/
  h : Vector Word 8
  /-- Byte counter (R22). -/
  count : Count
  /-- Block buffer (R23). -/
  buf : Vector Byte 64
  /-- Lifecycle (R25). -/
  life : Life
  /-- Data register (R28). -/
  dataIn : Word
  /-- Sticky usage-error flag (R29). -/
  err : Bool
  /-- First-error cause (R29). -/
  cause : Cause
  /-- First-error command word (R29). -/
  errCmd : Word
  /-- Pending-command slot (R30). -/
  pending : Option Pending
  /-- Internal state of the sequencer (R21, R24, R31, R32). -/
  seq : Sequencer
  /-- The reset input is asserted (70_reset_and_hazards.md R210). -/
  inReset : Bool
  /-- CMD writes offered and not accepted, oldest first (R140, R220). -/
  held : List HeldWrite
  /-- The bus masters (R9, R72). -/
  masters : List Master
  /-- The model's own: host turns that may still come before the sequencer's next one (log 4). -/
  wait : Nat
  /-- The model's own: the number of free choices taken (logs 4 and 5). -/
  turn : Nat
  deriving DecidableEq, Repr

/-- The ways the machine stops with a fault. -/
inductive Fault where
  /-- Raised by a master's access that the engine does not answer normally (20_memory.md R52, 60_exceptions.md R190):
  "A model treats such an access as a fault of the host program". Safe: nothing after it is modelled (log 7). -/
  | busError (off : BitVec 6) (width : Nat)
  deriving DecidableEq, Repr

/-- The ways the machine refuses to go on. -/
inductive Refusal where
  /-- Raised by an arm of `exec` for an instruction without a meaning; no arm raises it in this model. Safe. -/
  | notModelled (mnemonic : String)
  deriving DecidableEq, Repr

/-- What a step or a meaning answers. -/
abbrev Result := Host.Outcome State Fault Refusal

/-- The sequencer after reset. R35 leaves all of it but its idleness unspecified; the zeros are the model's (DESIGN
CHOICE, log 8). -/
def Sequencer.reset : Sequencer where
  phase := .idle
  rest := []
  workH := Vector.replicate 8 0#32
  workCount := 0#64
  workBuf := Vector.replicate 64 0#8
  vars := ⟨0#32, 0#32, 0#32, 0#32, 0#32, 0#32, 0#32, 0#32⟩
  w := Vector.replicate 64 0#32
  t := 0
  p := 0

/-- The machine right after reset, the input released (R35), with no bus master yet (log 13). `h` and `buf` are
unspecified there; their zeros are the model's (DESIGN CHOICE, log 8). -/
def State.reset : State where
  h := Vector.replicate 8 0#32
  count := 0#64
  buf := Vector.replicate 64 0#8
  life := .idle
  dataIn := 0#32
  err := false
  cause := .none
  errCmd := 0#32
  pending := none
  seq := Sequencer.reset
  inReset := false
  held := []
  masters := []
  wait := 0
  turn := 0

end Sys2Proof.Machine
end

