-- ==== Sys2Proof/Machine/Operands.lean ====
section
/-! DEFINITION. Operand assembly and byte order: the bytes a command captures (spec/30_encoding.md R82), the big-endian
packing of spec/20_memory.md R63, and reading and writing one entry of a buffer. -/
namespace Sys2Proof.Machine

/-- Entry `i`, and 0 outside the vector. -/
def nth {k n : Nat} (v : Vector (BitVec k) n) (i : Nat) : BitVec k := v[i]?.getD 0#k

/-- The vector with entry `i` replaced; nothing is replaced outside it. -/
def put {k n : Nat} (v : Vector (BitVec k) n) (i : Nat) (x : BitVec k) : Vector (BitVec k) n :=
  v.setIfInBounds i x

/-- `BE32`: the first byte is the most significant (00_scope.md R10). -/
def be32 (b0 b1 b2 b3 : Byte) : Word :=
  b0.setWidth 32 <<< 24 ||| b1.setWidth 32 <<< 16 ||| b2.setWidth 32 <<< 8 ||| b3.setWidth 32

/-- Byte `k` of a word, most significant first: `v[31 - 8k : 24 - 8k]` (R82). -/
def wordByte (v : Word) (k : Nat) : Byte := (v >>> (24 - 8 * k)).setWidth 8

/-- Byte `k` of `BE64(v)`, most significant first (R10). -/
def be64Byte (v : Count) (k : Nat) : Byte := (v >>> (56 - 8 * k)).setWidth 8

/-- `BE64(v)`: the 8 bytes of a 64-bit value, most significant first (R10). -/
def be64 (v : Count) : List Byte := (List.range 8).map (be64Byte v)

/-- The length field of a message of `len` bytes: `(8 · L) mod 2^64` (41_commands.md R149). -/
def lengthField (len : Count) : Count := 8#64 * len

/-- The fill position `count mod 64` (10_state.md R23). -/
def fill (count : Count) : Nat := count.toNat % 64

/-- The bytes that ABSORB.W #n takes of DATA_IN: the `n` most significant, in order (R82, 41_commands.md R158). -/
def captureBytes (n : Nat) (dataIn : Word) : List Byte := ((List.range 4).map (wordByte dataIn)).take n

/-- The bytes a command captures at its acceptance (10_state.md R30). -/
def capture (i : Instr) (dataIn : Word) : List Byte :=
  match i with
  | .nop => []
  | .init => []
  | .absorbB imm8 => [imm8]
  | .absorbW n => captureBytes n dataIn
  | .finalize => []

end Sys2Proof.Machine
end

