-- ==== Sys2Proof/Machine/Flags.lean ====
section
/-! DEFINITION. The flags and the status values: LIFE, BUSY, ERR and FILL (spec/20_memory.md R55), and the cause codes
(spec/60_exceptions.md R181). The engine has no other flag (spec/10_state.md R33). -/
namespace Sys2Proof.Machine

/-- The code of a lifecycle state (10_state.md R25). -/
def Life.code : Life → BitVec 2
  | .idle => 0#2
  | .active => 1#2
  | .finalized => 2#2

/-- The code of a cause (R181). -/
def Cause.code : Cause → BitVec 4
  | .none => 0#4
  | .illegalCmd => 1#4
  | .absorbNotActive => 2#4
  | .finalizeNotActive => 3#4

/-- `BUSY = 1` exactly when a command is pending (10_state.md R30). -/
def State.busy (s : State) : Bool := s.pending.isSome

/-- `STATUS = LIFE | BUSY<<2 | ERR<<3 | (count mod 64)<<8` (R55). -/
def State.status (s : State) : Word :=
  s.life.code.setWidth 32 ||| (BitVec.ofBool s.busy).setWidth 32 <<< 2 ||| (BitVec.ofBool s.err).setWidth 32 <<< 3
    ||| BitVec.ofNat 32 (fill s.count) <<< 8

/-- ERR_CAUSE: bits 3:0 hold CAUSE, the others read 0 (R56). -/
def State.errCause (s : State) : Word := s.cause.code.setWidth 32

end Sys2Proof.Machine
end

