-- ==== Sys2Proof/Machine/Compression.lean ====
section
/-! DEFINITION. The compression core of spec/40_compression.md: word functions, constants, message schedule, rounds and
`compress`. -/
namespace Sys2Proof.Machine

/-- Logical right shift (00_scope.md R10). -/
def shr (x : Word) (n : Nat) : Word := x >>> n

/-- Right rotation, `shr(x, n) ∨ (x << (32 - n))[31:0]` (R10). -/
def rotr (x : Word) (n : Nat) : Word := shr x n ||| x <<< (32 - n)

/-- `Ch(x, y, z) = (x ∧ y) ⊕ (¬x ∧ z)` (R100). -/
def ch (x y z : Word) : Word := (x &&& y) ^^^ (~~~x &&& z)

/-- `Maj(x, y, z) = (x ∧ y) ⊕ (x ∧ z) ⊕ (y ∧ z)` (R101). -/
def maj (x y z : Word) : Word := (x &&& y) ^^^ (x &&& z) ^^^ (y &&& z)

/-- `Σ0` (R102). -/
def bigSigma0 (x : Word) : Word := rotr x 2 ^^^ rotr x 13 ^^^ rotr x 22

/-- `Σ1` (R103). -/
def bigSigma1 (x : Word) : Word := rotr x 6 ^^^ rotr x 11 ^^^ rotr x 25

/-- `σ0`; the third term is a shift (R104). -/
def smallSigma0 (x : Word) : Word := rotr x 7 ^^^ rotr x 18 ^^^ shr x 3

/-- `σ1`; the third term is a shift (R105). -/
def smallSigma1 (x : Word) : Word := rotr x 17 ^^^ rotr x 19 ^^^ shr x 10

/-- Round constants K[0..31] (R106). -/
def roundConstantsLow : List Word :=
  [0x428a2f98#32, 0x71374491#32, 0xb5c0fbcf#32, 0xe9b5dba5#32, 0x3956c25b#32, 0x59f111f1#32, 0x923f82a4#32, 0xab1c5ed5#32]
  ++ [0xd807aa98#32, 0x12835b01#32, 0x243185be#32, 0x550c7dc3#32, 0x72be5d74#32, 0x80deb1fe#32, 0x9bdc06a7#32, 0xc19bf174#32]
  ++ [0xe49b69c1#32, 0xefbe4786#32, 0x0fc19dc6#32, 0x240ca1cc#32, 0x2de92c6f#32, 0x4a7484aa#32, 0x5cb0a9dc#32, 0x76f988da#32]
  ++ [0x983e5152#32, 0xa831c66d#32, 0xb00327c8#32, 0xbf597fc7#32, 0xc6e00bf3#32, 0xd5a79147#32, 0x06ca6351#32, 0x14292967#32]

/-- Round constants K[32..63] (R106). -/
def roundConstantsHigh : List Word :=
  [0x27b70a85#32, 0x2e1b2138#32, 0x4d2c6dfc#32, 0x53380d13#32, 0x650a7354#32, 0x766a0abb#32, 0x81c2c92e#32, 0x92722c85#32]
  ++ [0xa2bfe8a1#32, 0xa81a664b#32, 0xc24b8b70#32, 0xc76c51a3#32, 0xd192e819#32, 0xd6990624#32, 0xf40e3585#32, 0x106aa070#32]
  ++ [0x19a4c116#32, 0x1e376c08#32, 0x2748774c#32, 0x34b0bcb5#32, 0x391c0cb3#32, 0x4ed8aa4a#32, 0x5b9cca4f#32, 0x682e6ff3#32]
  ++ [0x748f82ee#32, 0x78a5636f#32, 0x84c87814#32, 0x8cc70208#32, 0x90befffa#32, 0xa4506ceb#32, 0xbef9a3f7#32, 0xc67178f2#32]

/-- The ROM of round constants (R106, R119; the spec supplies the values from general knowledge, log 18). -/
def roundConstants : List Word := roundConstantsLow ++ roundConstantsHigh

/-- `K[t]`. -/
def roundConstant (t : Nat) : Word := roundConstants[t]?.getD 0#32

/-- The initial hash value `IV[0..7]` (R107). -/
def initialHash : Vector Word 8 :=
  #v[0x6a09e667#32, 0xbb67ae85#32, 0x3c6ef372#32, 0xa54ff53a#32, 0x510e527f#32, 0x9b05688c#32, 0x1f83d9ab#32, 0x5be0cd19#32]

/-- `BE32(B[4t], B[4t+1], B[4t+2], B[4t+3])`, the schedule word `t` of a block for t < 16 (R108). -/
def blockWord (block : Vector Byte 64) (t : Nat) : Word :=
  be32 (nth block (4 * t)) (nth block (4 * t + 1)) (nth block (4 * t + 2)) (nth block (4 * t + 3))

/-- The load step's part of the schedule: `W[0..15]` from the block, the other entries as they were (R108, R117). -/
def loadSchedule (block : Vector Byte 64) (w : Vector Word 64) : Vector Word 64 :=
  (List.range 16).foldl (fun w t => put w t (blockWord block t)) w

/-- The recurrence for `W[t]`, 16 ≤ t ≤ 63 (R109). -/
def recurrence (w : Vector Word 64) (t : Nat) : Word :=
  smallSigma1 (nth w (t - 2)) + nth w (t - 7) + smallSigma0 (nth w (t - 15)) + nth w (t - 16)

/-- The schedule as round `t` uses it: `W[t]` is computed in round `t` when t ≥ 16 (R117). -/
def extendSchedule (w : Vector Word 64) (t : Nat) : Vector Word 64 :=
  if t < 16 then w else put w t (recurrence w t)

/-- The schedule of a block, `W[0..63]`, in increasing `t` (R108, R109). -/
def schedule (block : Vector Byte 64) : Vector Word 64 :=
  (List.range 64).foldl extendSchedule (loadSchedule block (Vector.replicate 64 0#32))

/-- The 16-word window form of the schedule: word `t mod 16` is replaced in round `t` when t ≥ 16 (R116). -/
def extendWindow (win : Vector Word 16) (t : Nat) : Vector Word 16 :=
  if t < 16 then win
  else put win (t % 16) (smallSigma1 (nth win ((t - 2) % 16)) + nth win ((t - 7) % 16)
    + smallSigma0 (nth win ((t - 15) % 16)) + nth win (t % 16))

/-- The window after rounds 0 to `t` (R116). -/
def windowAfter (block : Vector Byte 64) (t : Nat) : Vector Word 16 :=
  (List.range (t + 1)).foldl extendWindow
    ((List.range 16).foldl (fun w t => put w t (blockWord block t)) (Vector.replicate 16 0#32))

/-- The working variables loaded from the state (R110). -/
def loadVars (h : Vector Word 8) : WorkingVars :=
  ⟨nth h 0, nth h 1, nth h 2, nth h 3, nth h 4, nth h 5, nth h 6, nth h 7⟩

/-- `T1` of a round with constant `k` and schedule word `w` (R111). -/
def temp1 (v : WorkingVars) (k w : Word) : Word := v.h + bigSigma1 v.e + ch v.e v.f v.g + k + w

/-- `T2` of a round (R111). -/
def temp2 (v : WorkingVars) : Word := bigSigma0 v.a + maj v.a v.b v.c

/-- One round: the eight assignments are simultaneous (R111). -/
def roundStep (v : WorkingVars) (k w : Word) : WorkingVars where
  a := temp1 v k w + temp2 v
  b := v.a
  c := v.b
  d := v.c
  e := v.d + temp1 v k w
  f := v.e
  g := v.f
  h := v.g

/-- The working variables added into the state, word by word (R113). -/
def addVars (h : Vector Word 8) (v : WorkingVars) : Vector Word 8 :=
  #v[nth h 0 + v.a, nth h 1 + v.b, nth h 2 + v.c, nth h 3 + v.d, nth h 4 + v.e, nth h 5 + v.f, nth h 6 + v.g,
    nth h 7 + v.h]

/-- Rounds 0 to 63, in order, each once (R112). -/
def rounds (w : Vector Word 64) (v : WorkingVars) : WorkingVars :=
  (List.range 64).foldl (fun v t => roundStep v (roundConstant t) (nth w t)) v

/-- `compress(H, B)` (R120). -/
def compress (h : Vector Word 8) (block : Vector Byte 64) : Vector Word 8 :=
  addVars h (rounds (schedule block) (loadVars h))

end Sys2Proof.Machine
end

