-- ==== Sys2Proof/Machine/Sequencer.lean ====
section
/-! DEFINITION. The engine sequencer at the grain of its internal steps: the absorb path (spec/41_commands.md R142), the
padding state machine (R147, R148) and the round pipeline (spec/40_compression.md R117). One buffer byte, one load, one
round or one add is one step (spec/70_reset_and_hazards.md R227; log 3). -/
namespace Sys2Proof.Machine

/-- What the sequencer holds when a command is accepted: an absorb starts with its bytes, FINALIZE in PAD_80 at the fill
position, on internal copies of H, count and the buffer (10_state.md R31; logs 12 and 24). INIT needs no internal step
(log 19). -/
def Sequencer.start (q : Sequencer) (i : Instr) (bytes : List Byte) (h : Vector Word 8) (count : Count)
    (buf : Vector Byte 64) : Sequencer :=
  match i with
  | .nop => { q with phase := .done }
  | .init => { q with phase := .done }
  | .absorbB _ => { q with phase := .absorbing, rest := bytes, workH := h, workCount := count, workBuf := buf }
  | .absorbW _ => { q with phase := .absorbing, rest := bytes, workH := h, workCount := count, workBuf := buf }
  | .finalize => { q with phase := .pad80, workH := h, workCount := count, workBuf := buf, p := fill count }

/-- Where the absorb path goes when `rest` is still to be absorbed. -/
def absorbPhase (rest : List Byte) : Phase := if rest = [] then .done else .absorbing

/-- Where the padding goes after PAD_80 has left the cursor at `p`: a phase with nothing to write is passed over (R147,
R148). -/
def afterPad80 (p : Nat) : Phase :=
  if p > 56 then (if p < 64 then .padZeroTail else .compressing .pad1 .load)
  else (if p < 56 then .padZero else .padLen)

/-- One byte of the absorb path, on the internal copies (R142; log 24). -/
def Sequencer.absorbByte (q : Sequencer) (b : Byte) (rest : List Byte) : Sequencer :=
  { q with
    workBuf := put q.workBuf (fill q.workCount) b
    workCount := q.workCount + 1#64
    rest := rest
    phase := if fill (q.workCount + 1#64) = 0 then .compressing .absorb .load else absorbPhase rest }

/-- One pad byte written at the cursor, and the phase that comes next (R147; log 24). -/
def Sequencer.padByte (q : Sequencer) (b : Byte) (next : Nat → Phase) : Sequencer :=
  { q with workBuf := put q.workBuf q.p b, p := q.p + 1, phase := next (q.p + 1) }

/-- The load step: working variables from H, `W[0..15]` from the block (R117). -/
def Sequencer.loadStep (q : Sequencer) (c : Caller) : Sequencer :=
  { q with vars := loadVars q.workH, w := loadSchedule q.workBuf q.w, t := 0, phase := .compressing c .round }

/-- Round step `t`, computing `W[t]` when t ≥ 16 (R117). -/
def Sequencer.roundStep (q : Sequencer) (c : Caller) : Sequencer :=
  { q with
    w := extendSchedule q.w q.t
    vars := Machine.roundStep q.vars (roundConstant q.t) (nth (extendSchedule q.w q.t) q.t)
    t := if q.t < 63 then q.t + 1 else q.t
    phase := if q.t < 63 then .compressing c .round else .compressing c .add }

/-- The add step, and what the caller of the compression goes on with (R117, R148). -/
def Sequencer.addStep (q : Sequencer) (c : Caller) : Sequencer :=
  let q' := { q with workH := addVars q.workH q.vars }
  match c with
  | .absorb => { q' with phase := absorbPhase q.rest }
  | .pad1 => { q' with p := 0, phase := .padZero }
  | .pad2 => { q' with phase := .done }

/-- One internal step of the sequencer (R148, R117). It does nothing in the phases idle and DONE. -/
def Sequencer.step (q : Sequencer) : Sequencer :=
  match q.phase with
  | .idle => q
  | .done => q
  | .absorbing =>
    match q.rest with
    | [] => { q with phase := .done }
    | b :: rest => q.absorbByte b rest
  | .compressing c .load => q.loadStep c
  | .compressing c .round => q.roundStep c
  | .compressing c .add => q.addStep c
  | .pad80 => q.padByte 0x80#8 afterPad80
  | .padZeroTail => q.padByte 0#8 (fun p => if p < 64 then .padZeroTail else .compressing .pad1 .load)
  | .padZero => q.padByte 0#8 (fun p => if p < 56 then .padZero else .padLen)
  | .padLen =>
    q.padByte (be64Byte (lengthField q.workCount) (q.p - 56))
      (fun p => if p < 64 then .padLen else .compressing .pad2 .load)

/-- Internal steps that absorbing `n` bytes from fill position `pos` takes: one per byte and 66 per block completed
(R227). -/
def absorbSteps (pos n : Nat) : Nat := n + 66 * ((pos + n) / 64)

/-- Internal steps left of a compression at a stage: load, 64 rounds, add (R227). -/
def compressSteps (stage : Stage) (t : Nat) : Nat :=
  match stage with
  | .load => 66
  | .round => 65 - t
  | .add => 1

/-- Internal steps left after a compression, by its caller. -/
def Sequencer.stepsAfter (q : Sequencer) (c : Caller) : Nat :=
  match c with
  | .absorb => absorbSteps (fill q.workCount) q.rest.length
  | .pad1 => 56 + 8 + 66
  | .pad2 => 0

/-- Internal steps left of the padding from PAD_80's successor with the cursor at `p` (R227). -/
def padSteps (p : Nat) : Nat :=
  if p > 56 then (64 - p) + 66 + (56 + 8 + 66) else (56 - p) + 8 + 66

/-- Internal steps left until DONE (R227). -/
def Sequencer.stepsLeft (q : Sequencer) : Nat :=
  match q.phase with
  | .idle => 0
  | .done => 0
  | .absorbing => absorbSteps (fill q.workCount) q.rest.length
  | .compressing c stage => compressSteps stage q.t + q.stepsAfter c
  | .pad80 => 1 + padSteps (q.p + 1)
  | .padZeroTail => (64 - q.p) + 66 + (56 + 8 + 66)
  | .padZero => (56 - q.p) + 8 + 66
  | .padLen => (64 - q.p) + 66

/-- `n` internal steps. -/
def Sequencer.steps : Nat → Sequencer → Sequencer
  | 0, q => q
  | n + 1, q => Sequencer.steps n q.step

/-- The sequencer run to DONE: every pending command completes after finitely many internal steps (R141). -/
def Sequencer.run (q : Sequencer) : Sequencer := Sequencer.steps q.stepsLeft q

end Sys2Proof.Machine
end

