-- ==== Sys2Proof/Machine/Ops.lean ====
section
/-! DEFINITION. The shared operations: the register window (spec/20_memory.md R51 to R60), raising a usage error
(spec/60_exceptions.md R182), accepting and completing a command (spec/41_commands.md R140, R141), and reset
(spec/70_reset_and_hazards.md R210). -/
namespace Sys2Proof.Machine

/-- The registers of the window (R51). -/
inductive Reg where
  | cmd
  | dataIn
  | status
  | errCause
  | countLo
  | countHi
  | errCmd
  | reserved
  | digest (i : Fin 8)
  deriving DecidableEq, Repr

/-- The offset of a register (R51). -/
def Reg.offset : Reg → BitVec 6
  | .cmd => 0x00#6
  | .dataIn => 0x04#6
  | .status => 0x08#6
  | .errCause => 0x0C#6
  | .countLo => 0x10#6
  | .countHi => 0x14#6
  | .errCmd => 0x18#6
  | .reserved => 0x1C#6
  | .digest i => BitVec.ofNat 6 (0x20 + 4 * i.val)

/-- The register at an offset that is a multiple of 4 (R51). -/
def regAtWord (k : Nat) : Reg :=
  match k with
  | 0 => .cmd
  | 1 => .dataIn
  | 2 => .status
  | 3 => .errCause
  | 4 => .countLo
  | 5 => .countHi
  | 6 => .errCmd
  | 7 => .reserved
  | k => .digest (Fin.ofNat 8 (k - 8))

/-- The register an access is answered by: only a 32-bit access at a multiple of 4 has one (R52). -/
def regAt (off : BitVec 6) (width : Nat) : Option Reg :=
  if width = 4 ∧ off.toNat % 4 = 0 then some (regAtWord (off.toNat / 4)) else none

/-- The offset at which an absolute address falls in the window, if it does (R50, R74; log 2). -/
def windowOffset (addr : Nat) : Option (BitVec 6) :=
  if Config.engineBase ≤ addr ∧ addr < Config.engineBase + 64 then some (BitVec.ofNat 6 (addr - Config.engineBase))
  else none

/-- `DIGESTi`: `H[i]` in FINALIZED, else 0 (R58). -/
def State.digest (s : State) (i : Nat) : Word :=
  match s.life with
  | .idle => 0#32
  | .active => 0#32
  | .finalized => nth s.h i

/-- Digest byte `k`: `DIGEST(k div 4)[31 - 8·(k mod 4) : 24 - 8·(k mod 4)]` (R58). -/
def State.digestByte (s : State) (k : Nat) : Byte := wordByte (s.digest (k / 4)) (k % 4)

/-- What a 32-bit read of a register returns; no read changes anything (R53 to R61). -/
def State.readReg (s : State) (r : Reg) : Word :=
  match r with
  | .cmd => 0#32
  | .dataIn => s.dataIn
  | .status => s.status
  | .errCause => s.errCause
  | .countLo => s.count.setWidth 32
  | .countHi => (s.count >>> 32).setWidth 32
  | .errCmd => s.errCmd
  | .reserved => 0#32
  | .digest i => s.digest i.val

/-- A CMD write by master `k` is offered (R140); it is held until it is accepted (R62, R220). -/
def State.offer (s : State) (k : Nat) (w : Word) : State := { s with held := s.held ++ [⟨k, w⟩] }

/-- A 32-bit write of a register: CMD offers a command, DATA_IN stores, every other write is ignored (R53, R54, R60). While
the reset input is asserted every write is, since the state keeps its reset values then (70_reset_and_hazards.md R210;
log 9). -/
def State.writeReg (s : State) (k : Nat) (r : Reg) (v : Word) : State :=
  if s.inReset then s
  else match r with
  | .cmd => s.offer k v
  | .dataIn => { s with dataIn := v }
  | .status => s
  | .errCause => s
  | .countLo => s
  | .countHi => s
  | .errCmd => s
  | .reserved => s
  | .digest _ => s

/-- `raise UsageError(cause, w)`: the record keeps the first error, and the command is discarded (R182). -/
def State.usageError (s : State) (cause : Cause) (w : Word) : State :=
  { s with
    cause := if s.err then s.cause else cause
    errCmd := if s.err then s.errCmd else w
    err := true }

/-- The command becomes pending with its captured bytes, and the sequencer starts on it (R62, R30). -/
def State.accept (s : State) (i : Instr) : State :=
  { s with
    pending := some ⟨i, capture i s.dataIn⟩
    seq := s.seq.start i (capture i s.dataIn) s.h s.count s.buf }

/-- `pending` is emptied and the sequencer is idle again (R141). -/
def State.retire (s : State) : State := { s with pending := none, seq := { s.seq with phase := .idle } }

/-- The sequencer is run to DONE inside the pending command (R141). -/
def State.runSequencer (s : State) : State := { s with seq := s.seq.run }

/-- A command at its next moment (R140): accepted when nothing is pending, completed when it is the pending command;
while another command is pending its write is held and nothing of it happens (R220; log 11). -/
def State.atMoment (s : State) (i : Instr) (accepted completed : State → State) : State :=
  match s.pending with
  | none => accepted s
  | some p => if p.cmd = i then completed s else s

/-- The acceptance of a command that is legal in ACTIVE only (R62). The recorded word is the command's own (log 14). -/
def State.acceptInActive (s : State) (i : Instr) (cause : Cause) : State :=
  if s.life = .active then s.accept i else s.usageError cause (encode i)

/-- The completion of an absorb: H, count and the buffer take the values of the absorb path at once (10_state.md R31). -/
def State.commitAbsorb (s : State) : State :=
  let s := s.runSequencer
  { s with h := s.seq.workH, count := s.seq.workCount, buf := s.seq.workBuf }.retire

/-- The reset input goes to `level`, and every piece of engine state takes its value of R35: the pending command is
discarded and the held writes are aborted; the masters are not part of the engine (R210; log 9). -/
def State.resetEngine (s : State) (level : Bool) : State :=
  { State.reset with inReset := level, masters := s.masters, wait := s.wait, turn := s.turn }

end Sys2Proof.Machine
end

