-- ==== Sys2Proof/Machine/Commands.lean ====
section
/-! DEFINITION. The meanings of the five commands (spec/41_commands.md R155 to R159), each with its two clauses: accept
and complete. -/
namespace Sys2Proof.Machine

/-- `NOP`: nothing at acceptance, and it never becomes pending (R155). -/
def execNop (s : State) : Result := .next s

/-- The completion of INIT: IV, count 0, ACTIVE, the error record cleared; `buf` and DATA_IN unchanged (R156). -/
def State.commitInit (s : State) : State :=
  let s := s.runSequencer
  { s with h := initialHash, count := 0#64, life := .active, err := false, cause := .none, errCmd := 0#32 }.retire

/-- `INIT`: legal in every lifecycle state (R156). -/
def execInit (s : State) : Result :=
  .next (s.atMoment .init (fun s => s.accept .init) State.commitInit)

/-- `ABSORB.B #imm8` (R157). -/
def execAbsorbB (imm8 : Byte) (s : State) : Result :=
  .next (s.atMoment (.absorbB imm8) (fun s => s.acceptInActive (.absorbB imm8) .absorbNotActive) State.commitAbsorb)

/-- `ABSORB.W #n` (R158). -/
def execAbsorbW (n : Nat) (s : State) : Result :=
  .next (s.atMoment (.absorbW n) (fun s => s.acceptInActive (.absorbW n) .absorbNotActive) State.commitAbsorb)

/-- The completion of FINALIZE: the padding's H and buffer, and FINALIZED; `count` is unchanged (R159, R151). -/
def State.commitFinalize (s : State) : State :=
  let s := s.runSequencer
  { s with h := s.seq.workH, buf := s.seq.workBuf, life := .finalized }.retire

/-- `FINALIZE` (R159). -/
def execFinalize (s : State) : Result :=
  .next (s.atMoment .finalize (fun s => s.acceptInActive .finalize .finalizeNotActive) State.commitFinalize)

end Sys2Proof.Machine
end

