-- ==== Sys2Proof/Machine/Dispatch.lean ====
section
/-! DEFINITION. One arm per command. -/
namespace Sys2Proof.Machine

/-- The next moment of command `i` in state `s`: its acceptance or its completion. -/
def exec (i : Instr) (s : State) : Host.Outcome State Fault Refusal :=
  match i with
  | .nop => Sys2Proof.Machine.execNop s
  | .init => Sys2Proof.Machine.execInit s
  | .absorbB imm8 => Sys2Proof.Machine.execAbsorbB imm8 s
  | .absorbW n => Sys2Proof.Machine.execAbsorbW n s
  | .finalize => Sys2Proof.Machine.execFinalize s

end Sys2Proof.Machine
end

