-- ==== Sys2Proof/Machine/Agents.lean ====
section
/-! DEFINITION. The agents' turns: the acceptance of an offered command, the sequencer's turn, a bus master's turn, and
which of them moves next (spec/00_scope.md R9, spec/20_memory.md R62, R66, R72, spec/70_reset_and_hazards.md R220,
R226). -/
namespace Sys2Proof.Machine

/-- `v<n> <- x` on host variables listed by rising number (30_encoding.md R90; log 15). -/
def setVar (vars : List (Nat × Word)) (n : Nat) (x : Word) : List (Nat × Word) :=
  match vars with
  | [] => [(n, x)]
  | (m, y) :: rest =>
    if n < m then (n, x) :: (m, y) :: rest
    else if n = m then (n, x) :: rest
    else (m, y) :: setVar rest n x

/-- A fresh free number of host turns before the sequencer's next one (R226; log 4). -/
def State.drawWait (s : State) : State := { s with wait := Config.hostTurns s.turn, turn := s.turn + 1 }

/-- The acceptance of the written word `w`: decode first, then the command's own acceptance (R62, R184). -/
def acceptTurn (w : Word) (s : State) : Result :=
  match decode w with
  | .ok i => exec i s.drawWait
  | .error _ => .next (s.drawWait.usageError .illegalCmd w)

/-- The sequencer's turn on pending command `p`: one internal step, or at DONE the completion of the command (R141). -/
def sequencerTurn (p : Pending) (s : State) : Result :=
  if s.seq.phase = .done then exec p.cmd s else .next { s with seq := s.seq.step }.drawWait

/-- Master `k` goes on with its program `rest`. -/
def State.continueMaster (s : State) (k : Nat) (m : Master) (rest : List HostOp) : State :=
  { s with masters := s.masters.set k { m with program := rest } }

/-- One bus operation `op` of master `k`, which is `m` and has `rest` to do after it (R52 to R61, R90), or one change of
the reset input (R210); releasing an input that is not asserted does nothing. -/
def performOp (k : Nat) (m : Master) (op : HostOp) (rest : List HostOp) (s : State) : Result :=
  match op with
  | .write off width value =>
    match regAt off width with
    | some r => .next ((s.continueMaster k m rest).writeReg k r value)
    | none => .fault (.busError off width)
  | .read off width dst =>
    match regAt off width with
    | some r => .next (s.continueMaster k { m with vars := setVar m.vars dst (s.readReg r) } rest)
    | none => .fault (.busError off width)
  | .poll off mask value =>
    match regAt off 4 with
    | some r => .next (if s.readReg r &&& mask = value then s.continueMaster k m rest else s)
    | none => .fault (.busError off 4)
  | .assertReset => .next ((s.continueMaster k m rest).resetEngine true)
  | .releaseReset =>
    .next (if s.inReset then (s.continueMaster k m rest).resetEngine false else s.continueMaster k m rest)

/-- Master `k` performs the first operation of its program. -/
def masterTurn (k : Nat) (s : State) : Result :=
  match s.masters[k]? with
  | some m =>
    match m.program with
    | op :: rest => performOp k m op rest s
    | [] => .next s
  | none => .next s

/-- Master `k` can move: it has an operation to perform and no CMD write of its own held (R62, R220). -/
def State.canMove (s : State) (k : Nat) : Bool :=
  match s.masters[k]? with
  | some m => !m.program.isEmpty && !s.held.any (fun hw => hw.master == k)
  | none => false

/-- The masters that can move. -/
def State.readyMasters (s : State) : List Nat := (List.range s.masters.length).filter s.canMove

/-- One master that can move performs an operation; with several, which one is free (R72). With none the engine keeps
its state (60_exceptions.md R198; log 23). -/
def hostTurn (s : State) : Result :=
  match s.readyMasters with
  | [] => .next s
  | [k] => masterTurn k s
  | k :: k' :: ks =>
    masterTurn ((k :: k' :: ks)[Config.arbiter s.turn % (ks.length + 2)]?.getD k) { s with turn := s.turn + 1 }

/-- Who moves. While the reset input is asserted only the masters do (70_reset_and_hazards.md R210). With nothing pending
the oldest offered command is accepted before anything else (R222); with a command pending the sequencer moves when no host
turn may come before it, or no master can move (R226; log 4). -/
def nextTurn (s : State) : Result :=
  if s.inReset then hostTurn s
  else match s.pending, s.held with
  | none, [] => hostTurn s
  | none, hw :: rest => acceptTurn hw.word { s with held := rest }
  | some p, _ =>
    if s.readyMasters = [] ∨ s.wait = 0 then sequencerTurn p s else hostTurn { s with wait := s.wait - 1 }

/-- The word placed where the next command is taken from: the reset input released, nothing pending, and `w` the oldest
offered write (log 13). -/
def State.placeWord (s : State) (w : Word) : State :=
  { s with inReset := false, pending := none, seq := { s.seq with phase := .idle }, held := ⟨0, w⟩ :: s.held }

end Sys2Proof.Machine
end

