-- ==== Sys2Proof/Machine/HostSyntax.lean ====
section
/-! DEFINITION. Host statements and pseudo-instructions (spec/30_encoding.md R89 to R92) and their expansion into bus
operations. -/
namespace Sys2Proof.Machine

/-- A host statement (R89 to R92). Operands are as written; an operand out of range is an assembly error (R89). -/
inductive Stmt where
  | nop
  | init
  | absorbB (imm8 : Nat)
  | absorbW (n : Nat)
  | finalize
  | word (imm32 : Word)
  | wr (r : Reg) (imm32 : Word)
  | rd (r : Reg) (v : Nat)
  | poll (r : Reg) (mask value : Word)
  | absorbWImm (n : Nat) (imm32 : Word)
  | wait
  | fence
  | readDigest (v : Nat)
  | absorbS (text : List Byte)
  | digest (text : List Byte) (v : Nat)
  deriving DecidableEq, Repr

/-- `WR REG, imm32` (R90). -/
def wrOp (r : Reg) (v : Word) : HostOp := .write r.offset 4 v

/-- A command word written to CMD (R89). -/
def cmdOp (i : Instr) : HostOp := wrOp .cmd (encode i)

/-- `ABSORB.W #n, imm32` (R91). -/
def absorbWOps (n : Nat) (v : Word) : List HostOp := [wrOp .dataIn v, cmdOp (.absorbW n)]

/-- `WAIT` (R91). -/
def waitOp : HostOp := .poll Reg.status.offset 0x00000004#32 0x00000000#32

/-- `READ_DIGEST -> v .. v+7` (R91). -/
def readDigestOps (v : Nat) : List HostOp :=
  (List.finRange 8).map fun i => .read (Reg.digest i).offset 4 (v + i.val)

/-- `ABSORB.S`: each 4-byte group by an ABSORB.W #4, the last shorter group padded with zero bytes (R91). -/
def absorbSOps : List Byte → List HostOp
  | [] => []
  | [a] => absorbWOps 1 (be32 a 0#8 0#8 0#8)
  | [a, b] => absorbWOps 2 (be32 a b 0#8 0#8)
  | [a, b, c] => absorbWOps 3 (be32 a b c 0#8)
  | a :: b :: c :: d :: rest => absorbWOps 4 (be32 a b c d) ++ absorbSOps rest

/-- The command write of an instruction whose operand is in range; else an assembly error (R89). -/
def cmdOps (i : Instr) : Option (List HostOp) := if i.wf then some [cmdOp i] else none

/-- The bus operations of a statement, or none for an assembly error (R89 to R92). -/
def assemble : Stmt → Option (List HostOp)
  | .nop => cmdOps .nop
  | .init => cmdOps .init
  | .absorbB imm8 => if imm8 ≤ 255 then cmdOps (.absorbB (BitVec.ofNat 8 imm8)) else none
  | .absorbW n => cmdOps (.absorbW n)
  | .finalize => cmdOps .finalize
  | .word imm32 => some [wrOp .cmd imm32]
  | .wr r imm32 => some [wrOp r imm32]
  | .rd r v => some [.read r.offset 4 v]
  | .poll r mask value => some [.poll r.offset mask value]
  | .absorbWImm n imm32 => if (Instr.absorbW n).wf then some (absorbWOps n imm32) else none
  | .wait => some [waitOp]
  | .fence => cmdOps .nop
  | .readDigest v => some (readDigestOps v)
  | .absorbS text => some (absorbSOps text)
  | .digest text v =>
    some ([cmdOp .init] ++ absorbSOps text ++ [cmdOp .finalize, waitOp] ++ readDigestOps v)

/-- A host program; an assembly error in one statement is one of the whole. -/
def assembleAll : List Stmt → Option (List HostOp)
  | [] => some []
  | st :: rest =>
    match assemble st, assembleAll rest with
    | some ops, some more => some (ops ++ more)
    | _, _ => none

/-- `REPEAT k { ... }`, with `i` the iteration number from 0 (R90). -/
def repeatStmts (k : Nat) (body : Nat → List Stmt) : List Stmt := (List.range k).flatMap body

/-- The bytes a command word absorbs when it is accepted in ACTIVE with DATA_IN at `dataIn` (41_commands.md R157,
R158). -/
def commandBytes (dataIn w : Word) : List Byte :=
  match decode w with
  | .ok i => capture i dataIn
  | .error _ => []

/-- The message bytes that a list of bus operations absorbs in ACTIVE, with DATA_IN at `dataIn` before it, up to the first
reset (R145). -/
def absorbedBytes (dataIn : Word) : List HostOp → List Byte
  | [] => []
  | .write off _ value :: rest =>
    if off = Reg.cmd.offset then commandBytes dataIn value ++ absorbedBytes dataIn rest
    else if off = Reg.dataIn.offset then absorbedBytes value rest
    else absorbedBytes dataIn rest
  | .read _ _ _ :: rest => absorbedBytes dataIn rest
  | .poll _ _ _ :: rest => absorbedBytes dataIn rest
  | .assertReset :: _ => []
  | .releaseReset :: rest => absorbedBytes dataIn rest

/-- `MemWrite(addr, width, value)` at an absolute address of the window (00_scope.md R11; log 2). -/
def memWrite (addr width : Nat) (value : Word) : Option HostOp :=
  (windowOffset addr).map fun off => .write off width value

/-- `vN <- MemRead(addr, width)` at an absolute address of the window (R11; log 2). -/
def memRead (addr width dst : Nat) : Option HostOp :=
  (windowOffset addr).map fun off => .read off width dst

end Sys2Proof.Machine
end

