-- ==== Sys2Proof/Machine/Message.lean ====
section
/-! DEFINITION. The commands' effects as spec/41_commands.md writes them, each whole: `absorb` (R142), `pad` (R147), and
the digest of a message in the sense of R161. The sequencer computes the same by its internal steps; claims compare the
two. -/
namespace Sys2Proof.Machine

/-- What `absorb` and `pad` act on. -/
structure Message where
  h : Vector Word 8
  count : Count
  buf : Vector Byte 64
  deriving DecidableEq, Repr

/-- The message the sequencer is working on: its copies of H, count and the block buffer (10_state.md R31). -/
def Sequencer.message (q : Sequencer) : Message := ⟨q.workH, q.workCount, q.workBuf⟩

/-- `absorb(b)` (R142). -/
def absorb (m : Message) (b : Byte) : Message :=
  let buf := put m.buf (fill m.count) b
  let count := m.count + 1#64
  { h := if fill count = 0 then compress m.h buf else m.h, count := count, buf := buf }

/-- The `absorb` calls of a sequence of bytes, in order (R145). -/
def absorbAll (m : Message) (bytes : List Byte) : Message := bytes.foldl absorb m

/-- Zeros written from position `p` up to, not including, position `stop`. -/
def zeroFill (buf : Vector Byte 64) (p stop : Nat) : Vector Byte 64 :=
  (List.range' p (stop - p)).foldl (fun buf j => put buf j 0#8) buf

/-- `buf[56..63] <- BE64((8 · L) mod 2^64)` (R149). -/
def putLength (buf : Vector Byte 64) (len : Count) : Vector Byte 64 :=
  (List.range 8).foldl (fun buf k => put buf (56 + k) (be64Byte (lengthField len) k)) buf

/-- `pad(L)` with `L = count`; `count` is not changed (R147, R151). -/
def pad (m : Message) : Message :=
  let p := fill m.count + 1
  let buf80 := put m.buf (fill m.count) 0x80#8
  if p > 56 then
    let tail := zeroFill buf80 p 64
    let last := putLength (zeroFill tail 0 56) m.count
    { m with h := compress (compress m.h tail) last, buf := last }
  else
    let last := putLength (zeroFill buf80 p 56) m.count
    { m with h := compress m.h last, buf := last }

/-- The 64-byte block at the head of a list of bytes. -/
def blockOf (bytes : List Byte) : Vector Byte 64 := Vector.ofFn fun i => bytes[i.val]?.getD 0#8

/-- `compress` over the first `k` blocks of a list of bytes, in order. -/
def compressBlocks : Nat → Vector Word 8 → List Byte → Vector Word 8
  | 0, h, _ => h
  | k + 1, h, bytes => compressBlocks k (compress h (blockOf bytes)) (bytes.drop 64)

/-- The padded message: the bytes, a `0x80` byte, as few `0x00` bytes as bring the length to 56 modulo 64, and the
length in bits as an 8-byte big-endian integer (R147). -/
def padded (bytes : List Byte) : List Byte :=
  bytes ++ [0x80#8] ++ List.replicate ((119 - bytes.length % 64) % 64) 0#8
    ++ be64 (BitVec.ofNat 64 (8 * bytes.length))

/-- The SHA-256 state words of a message: the padded message compressed block by block from `IV` (R161). -/
def sha256 (bytes : List Byte) : Vector Word 8 :=
  compressBlocks ((padded bytes).length / 64) initialHash (padded bytes)

end Sys2Proof.Machine
end

