-- ==== Sys2Proof/Machine/Runs.lean ====
section
/-! DEFINITION. A command from its acceptance to its completion with nothing in between, and sequences of commands: the
runs that spec/41_commands.md R145 and R161 speak of. `step` may take other turns in between; claims say that they do
not matter. -/
namespace Sys2Proof.Machine

/-- Command `i` accepted and, if it became pending, completed (R140). -/
def runCommand (i : Instr) (s : State) : Result :=
  match exec i s with
  | .next s' => if s'.busy then exec i s' else .next s'
  | .fault r => .fault r
  | .refused r => .refused r

/-- One result after another: the second runs from the state the first answers. -/
def Result.andThen (r : Result) (f : State → Result) : Result :=
  match r with
  | .next s => f s
  | .fault e => .fault e
  | .refused e => .refused e

/-- One absorbing command of a host: ABSORB.B of a byte, or DATA_IN written and then ABSORB.W of its first `n` bytes
(R145; 30_encoding.md R91). -/
inductive Chunk where
  | byte (b : Byte)
  | word (n : Nat) (v : Word)
  deriving DecidableEq, Repr

/-- The chunk has an encoding (30_encoding.md R89). -/
def Chunk.wf : Chunk → Bool
  | .byte _ => true
  | .word n _ => (Instr.absorbW n).wf

/-- The message bytes a chunk absorbs, in order. -/
def Chunk.bytes : Chunk → List Byte
  | .byte b => [b]
  | .word n v => captureBytes n v

/-- The chunk's command run from `s`. -/
def Chunk.run (c : Chunk) (s : State) : Result :=
  match c with
  | .byte b => runCommand (.absorbB b) s
  | .word n v => runCommand (.absorbW n) { s with dataIn := v }

/-- Chunks run one after another. -/
def runChunks : List Chunk → State → Result
  | [], s => .next s
  | c :: cs, s => (c.run s).andThen (runChunks cs)

/-- INIT, the chunks, FINALIZE: the one-shot digest as commands (30_encoding.md R92, 41_commands.md R161). -/
def runDigest (cs : List Chunk) (s : State) : Result :=
  ((runCommand .init s).andThen (runChunks cs)).andThen (runCommand .finalize)

end Sys2Proof.Machine
end

