-- ==== Sys2Proof/Safety.lean ====
section
/-! DEFINITION. The terms claims use: the invariant of the machine (spec/10_state.md R36), the launch states and the end
of a run (spec/70_reset_and_hazards.md R228, R229), and a run without a refused command (spec/60_exceptions.md
R199). -/
namespace Sys2Proof.Machine

/-- The pending slot holds a command that can be pending, with the bytes its acceptance captures (R30, R82). -/
def Pending.wf (p : Pending) : Bool :=
  match p.cmd with
  | .nop => false
  | .init => p.bytes == []
  | .absorbB b => p.bytes == [b]
  | .absorbW n => (Instr.absorbW n).wf && p.bytes.length == n
  | .finalize => p.bytes == []

/-- The phases an absorb goes through, and what they know of the bytes still to come (41_commands.md R142). -/
def Sequencer.inAbsorb (q : Sequencer) : Bool :=
  match q.phase with
  | .absorbing => !q.rest.isEmpty
  | .compressing .absorb _ => fill q.workCount == 0
  | .done => q.rest.isEmpty
  | _ => false

/-- The phases FINALIZE goes through, and where the padding cursor is in each (41_commands.md R147, R148). -/
def Sequencer.inPadding (q : Sequencer) : Bool :=
  match q.phase with
  | .pad80 => q.p == fill q.workCount
  | .padZeroTail => decide (56 < q.p) && decide (q.p < 64)
  | .compressing .pad1 _ => true
  | .padZero => decide (q.p < 56)
  | .padLen => decide (56 ≤ q.p) && decide (q.p < 64)
  | .compressing .pad2 _ => true
  | .done => true
  | _ => false

/-- The sequencer is somewhere on the way of command `i`, started on a committed count of `count` (R32). -/
def Sequencer.fits (q : Sequencer) (i : Instr) (count : Count) : Bool :=
  match i with
  | .nop => false
  | .init => q.phase == .done
  | .absorbB _ => q.inAbsorb && decide (q.rest.length ≤ 4)
  | .absorbW _ => q.inAbsorb && decide (q.rest.length ≤ 4)
  | .finalize => q.inPadding && q.workCount == count

/-- A command other than INIT is pending in ACTIVE only (R62, R26). -/
def Pending.legalIn (p : Pending) (life : Life) : Bool := p.cmd == .init || life == .active

/-- What holds of the pending slot and the sequencer together (R30, R141). -/
def State.slotInv (s : State) : Prop :=
  match s.pending with
  | none => s.seq.phase = .idle
  | some p => p.wf = true ∧ p.legalIn s.life = true ∧ s.seq.fits p.cmd s.count = true

/-- `ERR`, `CAUSE` and `ERR_CMD` agree: no error is recorded as none, an error has a cause (R29, R56, R59). -/
def State.recordInv (s : State) : Prop :=
  (s.err = false → s.cause = .none ∧ s.errCmd = 0#32) ∧ (s.err = true → s.cause ≠ .none)

/-- `LIFE = IDLE` implies `count = 0` (R36). -/
def State.idleInv (s : State) : Prop := s.life = .idle → s.count = 0#64

/-- The round index and the padding cursor are in their ranges (R32). -/
def State.cursorInv (s : State) : Prop := s.seq.t ≤ 63 ∧ s.seq.p ≤ 64

/-- No master has two CMD writes held: it waits for the first (R62, R220). -/
def State.heldInv (s : State) : Prop := (s.held.map HeldWrite.master).Nodup

/-- Host variables are listed by rising number, each once (log 15). -/
def Master.wf (m : Master) : Prop := (m.vars.map Prod.fst).Pairwise (· < ·)

/-- The committed values that `absorb` and `pad` act on. -/
def State.message (s : State) : Message := ⟨s.h, s.count, s.buf⟩

/-- The internal copies are on the way from the committed values to the whole effect of the pending command (R31, R142,
41_commands.md R147). -/
def State.workInv (s : State) : Prop :=
  match s.pending with
  | none => True
  | some p =>
    match p.cmd with
    | .nop => True
    | .init => True
    | .absorbB _ => s.seq.run.message = absorbAll s.message p.bytes
    | .absorbW _ => s.seq.run.message = absorbAll s.message p.bytes
    | .finalize => s.seq.run.message = pad s.message

/-- While the reset input is asserted, every piece of state that R35 gives a value has it, and no write is held
(70_reset_and_hazards.md R210). -/
def State.resetInv (s : State) : Prop :=
  s.inReset = true → s.life = .idle ∧ s.pending = none ∧ s.held = [] ∧ s.err = false ∧ s.cause = .none
    ∧ s.errCmd = 0#32 ∧ s.count = 0#64 ∧ s.dataIn = 0#32

/-- The invariant of the machine: R36, with what R29 to R32, R62 and R210 say of every reachable state. -/
def State.Inv (s : State) : Prop :=
  s.slotInv ∧ s.recordInv ∧ s.idleInv ∧ s.cursorInv ∧ s.heldInv ∧ (∀ m ∈ s.masters, m.wf) ∧ s.workInv ∧ s.resetInv

/-- `bytes` are the message bytes absorbed since the last INIT, none in IDLE: count is their number; in ACTIVE H is the
hash of the whole blocks and the buffer bytes below `count mod 64` are the last bytes, in order; in FINALIZED H is the digest
of a message in the range of SHA-256 (R36). -/
def State.holdsMessage (s : State) (bytes : List Byte) : Prop :=
  s.count = BitVec.ofNat 64 bytes.length
  ∧ (s.life = .idle → bytes = [])
  ∧ (s.life = .active →
      s.h = compressBlocks (bytes.length / 64) initialHash bytes
      ∧ ∀ j < s.count.toNat % 64, bytes[bytes.length - s.count.toNat % 64 + j]? = some (nth s.buf j))
  ∧ (s.life = .finalized → bytes.length < 2 ^ 61 → s.h = sha256 bytes)

/-- The message bytes after a step from `s` to `t`, when they were `bytes` before it: a completed absorb appends its bytes,
a completed INIT and a reset begin again (R22, R26). -/
def messageAfter (s t : State) (bytes : List Byte) : List Byte :=
  if t.life = .idle then []
  else match s.pending, t.pending with
  | some p, none =>
    match p.cmd with
    | .nop => bytes
    | .init => []
    | .absorbB _ => bytes ++ p.bytes
    | .absorbW _ => bytes ++ p.bytes
    | .finalize => bytes
  | some _, some _ => bytes
  | none, _ => bytes

/-- The committed state, as the registers show it (R31): one list of all register values in the order of the map. -/
def State.window (s : State) : List Word :=
  [s.readReg .cmd, s.readReg .dataIn, s.readReg .status, s.readReg .errCause, s.readReg .countLo, s.readReg .countHi,
   s.readReg .errCmd, s.readReg .reserved] ++ (List.finRange 8).map fun i => s.readReg (.digest i)

/-- The launch state **clean-idle** (R229): BUSY = 0, ERR = 0 and no command in flight. -/
def State.cleanIdle (s : State) : Bool := !s.inReset && !s.busy && !s.err && s.held.isEmpty

/-- The launch state **after-reset** for given host programs (R229). -/
def State.afterReset (masters : List Master) : State := { State.reset with masters := masters }

/-- A run has ended: every master has executed its last operation and BUSY = 0 (R228). -/
def State.runEnded (s : State) : Bool := s.masters.all (fun m => m.program.isEmpty) && !s.busy && s.held.isEmpty

/-- A run has ended and no command of it was refused (R199). -/
def State.safeEnd (s : State) : Bool := s.runEnded && !s.err

end Sys2Proof.Machine
end

