-- ==== Sys2Proof/Certificates/Slice0/Obligations.lean ====
section
/-! DEFINITION. The statements for the provers: what the rules of spec/ say of the commands, the registers, the sequencer
and the machine as a whole. -/
open Sys2Proof Sys2Proof.Machine

/-! ### Encoding -/

/-- Every command with operands in range is what its own word decodes to (30_encoding.md R84, R85, R89). -/
def Obligations.DecodeOfEncodeIsTheCommand : Prop :=
  ∀ i : Instr, i.wf = true → decode (encode i) = .ok i

/-- A legal word has exactly one command, well formed, and that command's word is it (R82, R84, R85). -/
def Obligations.EncodeOfDecodeIsTheWord : Prop :=
  ∀ (w : Word) (i : Instr), decode w = .ok i → i.wf = true ∧ encode i = w

/-- R84: the match and mask of each command; a word selects a command exactly when it matches the command's row; the rows
are disjoint; the free bits of a pattern are the operand. -/
def Obligations.WordsSelectCommandsByDisjointPatterns : Prop :=
  Instr.nop.row = ⟨0x00000000#32, 0xFFFFFFFF#32⟩ ∧ Instr.init.row = ⟨0x00000001#32, 0xFFFFFFFF#32⟩
  ∧ (∀ b : Byte, (Instr.absorbB b).row = ⟨0x00000002#32, 0xFFFF00FF#32⟩)
  ∧ (∀ n : Nat, (Instr.absorbW n).row = ⟨0x00000003#32, 0xFFFFFFCF#32⟩)
  ∧ Instr.finalize.row = ⟨0x00000004#32, 0xFFFFFFFF#32⟩
  ∧ (∀ (w : Word) (i : Instr), decode w = .ok i → i.row ∈ rows ∧ i.row.selects w = true)
  ∧ (∀ (w : Word), ∀ r ∈ rows, r.selects w = true → ∃ i, decode w = .ok i ∧ i.row = r)
  ∧ (∀ (w : Word), ∀ r ∈ rows, ∀ r' ∈ rows, r.selects w = true → r'.selects w = true → r = r')
  ∧ (∀ (w : Word) (r : Row), r.selects w = true ↔ w &&& r.mask = r.pattern)
  ∧ (∀ (w : Word) (b : Byte), decode w = .ok (.absorbB b) → b = w.extractLsb' 8 8)
  ∧ (∀ (w : Word) (n : Nat), decode w = .ok (.absorbW n) → n = (w.extractLsb' 4 2).toNat + 1)

/-- R86, the set of illegal words: OP in 0x5 to 0xF whatever the other bits, and OP in 0x0 to 0x4 with a nonzero bit
outside the fields the command uses. -/
def Obligations.IllegalWordsAreReservedOpOrNonzeroUnusedBits : Prop :=
  ∀ w : Word,
    (decode w = .error .reservedOp ↔ 5 ≤ (w &&& 0x0000000F#32).toNat)
    ∧ (decode w = .error .nonzeroUnusedBits ↔
        (((w &&& 0x0000000F#32) = 0x0#32 ∨ (w &&& 0x0000000F#32) = 0x1#32 ∨ (w &&& 0x0000000F#32) = 0x4#32)
            ∧ w &&& 0xFFFFFFF0#32 ≠ 0#32)
        ∨ ((w &&& 0x0000000F#32) = 0x2#32 ∧ w &&& 0xFFFF00F0#32 ≠ 0#32)
        ∨ ((w &&& 0x0000000F#32) = 0x3#32 ∧ w &&& 0xFFFFFFC0#32 ≠ 0#32))

/-- R93: the encoding examples, in both directions. -/
def Obligations.EncodingExamplesHold : Prop :=
  encode (.absorbB 0x68#8) = 0x00006802#32 ∧ decode 0x00006802#32 = .ok (.absorbB 0x68#8)
  ∧ encode (.absorbW 1) = 0x00000003#32 ∧ decode 0x00000003#32 = .ok (.absorbW 1)
  ∧ encode (.absorbW 2) = 0x00000013#32 ∧ decode 0x00000013#32 = .ok (.absorbW 2)
  ∧ encode (.absorbW 3) = 0x00000023#32 ∧ decode 0x00000023#32 = .ok (.absorbW 3)
  ∧ encode (.absorbW 4) = 0x00000033#32 ∧ decode 0x00000033#32 = .ok (.absorbW 4)
  ∧ decode 0x00000000#32 = .ok .nop ∧ decode 0x00000001#32 = .ok .init ∧ decode 0x00000004#32 = .ok .finalize
  ∧ decode 0x00000005#32 = .error .reservedOp
  ∧ decode 0x00000012#32 = .error .nonzeroUnusedBits
  ∧ decode 0x00000101#32 = .error .nonzeroUnusedBits

/-- R89: each mnemonic is one 32-bit write of its word to CMD; an operand out of range is an assembly error and no word
is written; `.WORD` writes any word. -/
def Obligations.MnemonicsAssembleToTheirWords : Prop :=
  assemble .nop = some [.write 0x00#6 4 0x00000000#32]
  ∧ assemble .init = some [.write 0x00#6 4 0x00000001#32]
  ∧ (∀ imm8 : Nat, assemble (.absorbB imm8)
      = if imm8 ≤ 255 then some [.write 0x00#6 4 (0x00000002#32 ||| BitVec.ofNat 32 imm8 <<< 8)] else none)
  ∧ (∀ n : Nat, assemble (.absorbW n)
      = if 1 ≤ n ∧ n ≤ 4 then some [.write 0x00#6 4 (0x00000003#32 ||| BitVec.ofNat 32 (n - 1) <<< 4)] else none)
  ∧ assemble .finalize = some [.write 0x00#6 4 0x00000004#32]
  ∧ (∀ w : Word, assemble (.word w) = some [.write 0x00#6 4 w])

/-- R91: `ABSORB.S "text"` absorbs exactly the bytes of the text, in order, whatever DATA_IN holds before. -/
def Obligations.AbsorbTextAbsorbsItsBytes : Prop :=
  ∀ (text : List Byte) (d : Word), ∃ ops, assemble (.absorbS text) = some ops ∧ absorbedBytes d ops = text

/-! ### The commands -/

/-- R155, R68: NOP. Its word alone decodes to it; it changes nothing; its acceptance takes its write off the held ones and
does nothing else, but for the model's own draw of free host turns (logs 4, 6); while a command is pending no held write is
accepted. -/
def Obligations.NopOnlyWaitsForThePendingCommand : Prop :=
  (∀ w : Word, decode w = .ok .nop ↔ w = 0x00000000#32)
  ∧ (∀ s : State, exec .nop s = .next s)
  ∧ (∀ (s : State) (k : Nat) (rest : List HeldWrite), s.inReset = false → s.pending = none →
      s.held = ⟨k, 0x00000000#32⟩ :: rest →
      step s = .next { s with held := rest, wait := Config.hostTurns s.turn, turn := s.turn + 1 })
  ∧ (∀ (s t : State) (p : Pending), s.pending = some p → step s = .next t → t.pending = some p →
      s.held <+: t.held)

/-- R156: INIT. Its word alone decodes to it; it is accepted in every lifecycle state with no other effect on the committed
state; its completion loads the initial hash value, sets count to 0 and LIFE to ACTIVE and clears the error record, and
leaves the buffer, DATA_IN and all else. -/
def Obligations.InitOpensANewMessage : Prop :=
  (∀ w : Word, decode w = .ok .init ↔ w = 0x00000001#32)
  ∧ (∀ s : State, s.pending = none → ∃ q q' : Sequencer,
      exec .init s = .next { s with pending := some ⟨.init, []⟩, seq := q }
      ∧ exec .init { s with pending := some ⟨.init, []⟩, seq := q } = .next
        { s with
          h := #v[0x6a09e667#32, 0xbb67ae85#32, 0x3c6ef372#32, 0xa54ff53a#32, 0x510e527f#32, 0x9b05688c#32,
            0x1f83d9ab#32, 0x5be0cd19#32]
          count := 0#64
          life := .active
          err := false
          cause := .none
          errCmd := 0#32
          pending := none
          seq := q' })

/-- R157: ABSORB.B. Its encoding; outside ACTIVE a usage error and nothing else; in ACTIVE it becomes pending with its byte,
and its completion is `absorb(b)` (R142); nothing else of the committed state changes. -/
def Obligations.AbsorbByteAbsorbsItsByte : Prop :=
  (∀ b : Byte, encode (.absorbB b) = 0x00000002#32 ||| b.setWidth 32 <<< 8)
  ∧ (∀ (w : Word) (b : Byte), decode w = .ok (.absorbB b) ↔
      w &&& 0xFFFF00FF#32 = 0x00000002#32 ∧ b = w.extractLsb' 8 8)
  ∧ (∀ (s : State) (b : Byte), s.pending = none → s.life ≠ .active →
      exec (.absorbB b) s = .next
        { s with
          err := true
          cause := if s.err then s.cause else .absorbNotActive
          errCmd := if s.err then s.errCmd else 0x00000002#32 ||| b.setWidth 32 <<< 8 })
  ∧ (∀ (s : State) (b : Byte), s.pending = none → s.life = .active → ∃ q q' : Sequencer,
      exec (.absorbB b) s = .next { s with pending := some ⟨.absorbB b, [b]⟩, seq := q }
      ∧ exec (.absorbB b) { s with pending := some ⟨.absorbB b, [b]⟩, seq := q } = .next
        { s with
          h := (absorb ⟨s.h, s.count, s.buf⟩ b).h
          count := (absorb ⟨s.h, s.count, s.buf⟩ b).count
          buf := (absorb ⟨s.h, s.count, s.buf⟩ b).buf
          pending := none
          seq := q' })

/-- R158: ABSORB.W. Its encoding; outside ACTIVE a usage error and nothing else; in ACTIVE it becomes pending with the `n`
most significant bytes of DATA_IN, captured then, and its completion is the `absorb` calls on them in order, whatever
DATA_IN holds by then; nothing else of the committed state changes. -/
def Obligations.AbsorbWordAbsorbsTheCapturedBytes : Prop :=
  (∀ n : Nat, encode (.absorbW n) = 0x00000003#32 ||| BitVec.ofNat 32 (n - 1) <<< 4)
  ∧ (∀ (w : Word) (n : Nat), decode w = .ok (.absorbW n) ↔
      w &&& 0xFFFFFFCF#32 = 0x00000003#32 ∧ n = (w.extractLsb' 4 2).toNat + 1)
  ∧ (∀ (s : State) (n : Nat), 1 ≤ n → n ≤ 4 → s.pending = none → s.life ≠ .active →
      exec (.absorbW n) s = .next
        { s with
          err := true
          cause := if s.err then s.cause else .absorbNotActive
          errCmd := if s.err then s.errCmd else 0x00000003#32 ||| BitVec.ofNat 32 (n - 1) <<< 4 })
  ∧ (∀ (s : State) (n : Nat) (bytes : List Byte), 1 ≤ n → n ≤ 4 → s.pending = none → s.life = .active →
      bytes = [s.dataIn.extractLsb' 24 8, s.dataIn.extractLsb' 16 8, s.dataIn.extractLsb' 8 8,
        s.dataIn.extractLsb' 0 8].take n →
      ∃ q q' : Sequencer,
      exec (.absorbW n) s = .next { s with pending := some ⟨.absorbW n, bytes⟩, seq := q }
      ∧ ∀ v : Word, exec (.absorbW n) { s with pending := some ⟨.absorbW n, bytes⟩, seq := q, dataIn := v } = .next
        { s with
          h := (absorbAll ⟨s.h, s.count, s.buf⟩ bytes).h
          count := (absorbAll ⟨s.h, s.count, s.buf⟩ bytes).count
          buf := (absorbAll ⟨s.h, s.count, s.buf⟩ bytes).buf
          dataIn := v
          pending := none
          seq := q' })

/-- R159: FINALIZE. Its word alone decodes to it; outside ACTIVE a usage error and nothing else; in ACTIVE it becomes
pending, and its completion is `pad(count)` (R147) and LIFE becomes FINALIZED; count and everything else of the committed
state stay (R151). -/
def Obligations.FinalizePadsAndFinalizes : Prop :=
  (∀ w : Word, decode w = .ok .finalize ↔ w = 0x00000004#32)
  ∧ (∀ s : State, s.pending = none → s.life ≠ .active →
      exec .finalize s = .next
        { s with
          err := true
          cause := if s.err then s.cause else .finalizeNotActive
          errCmd := if s.err then s.errCmd else 0x00000004#32 })
  ∧ (∀ s : State, s.pending = none → s.life = .active → ∃ q q' : Sequencer,
      exec .finalize s = .next { s with pending := some ⟨.finalize, []⟩, seq := q }
      ∧ exec .finalize { s with pending := some ⟨.finalize, []⟩, seq := q } = .next
        { s with
          h := (pad ⟨s.h, s.count, s.buf⟩).h
          buf := (pad ⟨s.h, s.count, s.buf⟩).buf
          life := .finalized
          pending := none
          seq := q' })

/-- R140, R220: while a command is pending no held write is accepted, whatever its word: a step leaves the held writes in
their order, or asserts the reset input, which aborts them; and while the same command stays pending nothing of the committed
state but DATA_IN changes. (With the reset input asserted nothing is pending, by the invariant. The list of held writes: log
6. That `exec` of another command answers the state unchanged is the model's choice, log 11; the step never asks it there.) -/
def Obligations.CommandWaitsWhileAnotherIsPending : Prop :=
  (∀ (i : Instr) (s : State) (p : Pending), s.pending = some p → p.cmd ≠ i → exec i s = .next s)
  ∧ (∀ (s t : State) (p : Pending), s.inReset = false → s.pending = some p → step s = .next t →
      s.held <+: t.held
      ∨ (t.held = [] ∧ t.pending = none ∧ t.life = .idle
        ∧ ∃ m ∈ s.masters, ∃ rest, m.program = .assertReset :: rest))
  ∧ (∀ (s t : State) (p : Pending), s.pending = some p → step s = .next t → t.pending = some p →
      s.held <+: t.held ∧ t.h = s.h ∧ t.count = s.count ∧ t.buf = s.buf ∧ t.life = s.life ∧ t.err = s.err
      ∧ t.cause = s.cause ∧ t.errCmd = s.errCmd)

/-- R160: an illegal word is rejected at its acceptance with cause ILLEGAL_CMD, whatever the lifecycle state, and never
becomes pending; only the error record changes. (The held writes and the draw of free host turns are the model's, logs 4
and 6.) -/
def Obligations.IllegalWordIsAUsageError : Prop :=
  ∀ (s : State) (k : Nat) (w : Word) (rest : List HeldWrite) (e : Illegal), s.inReset = false →
    s.pending = none → s.held = ⟨k, w⟩ :: rest → decode w = .error e →
    step s = .next
      { s with
        held := rest
        err := true
        cause := if s.err then s.cause else .illegalCmd
        errCmd := if s.err then s.errCmd else w
        wait := Config.hostTurns s.turn
        turn := s.turn + 1 }

/-- R182, R183, R184: every refused word, at its acceptance. Decoding comes first; the recorded word is the written
one; the record keeps the first error; the command has no other effect. (The held writes and the draw of free host turns
are the model's, logs 4 and 6.) -/
def Obligations.RefusedCommandChangesTheErrorRecordOnly : Prop :=
  ∀ (s : State) (k : Nat) (w : Word) (rest : List HeldWrite) (c : Cause), s.inReset = false → s.pending = none →
    s.held = ⟨k, w⟩ :: rest →
    ((c = .illegalCmd ∧ ∃ e, decode w = .error e)
      ∨ (c = .absorbNotActive ∧ s.life ≠ .active ∧ ∃ b, decode w = .ok (.absorbB b))
      ∨ (c = .absorbNotActive ∧ s.life ≠ .active ∧ ∃ n, decode w = .ok (.absorbW n))
      ∨ (c = .finalizeNotActive ∧ s.life ≠ .active ∧ decode w = .ok .finalize)) →
    step s = .next
      { s with
        held := rest
        err := true
        cause := if s.err then s.cause else c
        errCmd := if s.err then s.errCmd else w
        wait := Config.hostTurns s.turn
        turn := s.turn + 1 }

/-! ### Steps -/

/-- R62: with nothing pending, the oldest offered word that decodes to a command is what `exec` runs in the next step;
the step takes it off the held writes and draws the free number of host turns (logs 4, 6). -/
def Obligations.StepRunsTheOfferedCommand : Prop :=
  ∀ (s : State) (k : Nat) (w : Word) (i : Instr) (rest : List HeldWrite), s.inReset = false →
    s.pending = none → s.held = ⟨k, w⟩ :: rest → decode w = .ok i →
    step s = exec i { s with held := rest, wait := Config.hostTurns s.turn, turn := s.turn + 1 }

/-- R141, R226: with a command pending and the sequencer's turn come, the step is one internal step of the sequencer, and
at DONE it is the completion of the pending command by `exec`; otherwise it is a host turn (whose turn it is: log 4). -/
def Obligations.StepOfAPendingCommandIsTheSequencersOrAHostTurn : Prop :=
  (∀ (s : State) (p : Pending), s.inReset = false → s.pending = some p →
      (s.readyMasters = [] ∨ s.wait = 0) → s.seq.phase = .done →
      step s = exec p.cmd s)
  ∧ (∀ (s : State) (p : Pending), s.inReset = false → s.pending = some p →
      (s.readyMasters = [] ∨ s.wait = 0) → s.seq.phase ≠ .done →
      step s = .next { s with seq := s.seq.step, wait := Config.hostTurns s.turn, turn := s.turn + 1 })
  ∧ (∀ (s : State) (p : Pending) (k : Nat), s.inReset = false → s.pending = some p →
      s.readyMasters = [k] → s.wait ≠ 0 →
      step s = masterTurn k { s with wait := s.wait - 1 })

/-- R66, R72, R210: at a host turn exactly one of the masters that can move performs its operation, whole; which one is free
(log 5). While the reset input is asserted every step is a host turn (log 9). -/
def Obligations.OneReadyMasterMovesAtAHostTurn : Prop :=
  (∀ s : State, s.inReset = true ∨ (s.pending = none ∧ s.held = []) → s.readyMasters ≠ [] →
      ∃ k ∈ s.readyMasters, ∃ u : Nat, step s = masterTurn k { s with turn := u })
  ∧ (∀ (s : State) (p : Pending), s.inReset = false → s.pending = some p → s.wait ≠ 0 → s.readyMasters ≠ [] →
      ∃ k ∈ s.readyMasters, ∃ u : Nat, step s = masterTurn k { s with wait := s.wait - 1, turn := u })

/-- R211, R198, R210: with nothing pending and nothing held, or with the reset input asserted, a master that alone can move
performs its next operation, and with no master that can move the state stays. (Logs 9 and 23.) -/
def Obligations.IdleEngineWaitsForTheHost : Prop :=
  (∀ (s : State) (k : Nat), s.inReset = true ∨ (s.pending = none ∧ s.held = []) → s.readyMasters = [k] →
      step s = masterTurn k s)
  ∧ (∀ s : State, s.inReset = true ∨ (s.pending = none ∧ s.held = []) → s.readyMasters = [] → step s = .next s)

/-- R188, R190, R199: no step refuses, and a step faults only on a master's bus access that is not a 32-bit access at a
multiple of 4. (Log 7.) -/
def Obligations.OnlyABadBusAccessFaults : Prop :=
  (∀ (s : State) (r : Refusal), step s ≠ .refused r)
  ∧ (∀ (s : State) (off : BitVec 6) (width : Nat), step s = .fault (.busError off width) →
      ((width ≠ 4 ∨ off.toNat % 4 ≠ 0) ∧ ∃ m ∈ s.masters, ∃ op rest, m.program = op :: rest
        ∧ ((∃ v, op = .write off width v) ∨ (∃ d, op = .read off width d)
          ∨ (width = 4 ∧ ∃ mask v, op = .poll off mask v))))

/-- The invariant R36 (with what R29 to R32, R56 and R210 say of pending, sequencer, error record and reset input) holds
after reset with any host programs whose variables are unassigned. -/
def Obligations.InvariantHoldsAfterReset : Prop :=
  ∀ programs : List (List HostOp), (State.afterReset (programs.map fun p => ⟨p, []⟩)).Inv

/-- Every step keeps the invariant (R36; its parts on held writes and host variables are the model's, logs 6 and 15). -/
def Obligations.EveryStepKeepsTheInvariant : Prop :=
  ∀ s t : State, s.Inv → step s = .next t → t.Inv

/-- R26: LIFE changes only by the completion of INIT (to ACTIVE), by the completion of FINALIZE in ACTIVE (to FINALIZED)
and by reset (to IDLE). -/
def Obligations.LifecycleChangesOnlyAsTheTableSays : Prop :=
  ∀ s t : State, s.Inv → step s = .next t → t.life ≠ s.life →
    (s.pending = some ⟨.init, []⟩ ∧ s.seq.phase = .done ∧ t.pending = none ∧ t.life = .active)
    ∨ (s.pending = some ⟨.finalize, []⟩ ∧ s.seq.phase = .done ∧ s.life = .active ∧ t.pending = none
        ∧ t.life = .finalized)
    ∨ (t.life = .idle ∧ t.pending = none ∧ ∃ m ∈ s.masters, ∃ rest, m.program = .assertReset :: rest)

/-- R187: a recorded error stays, with its cause and word, until INIT completes or a reset comes. -/
def Obligations.ErrorRecordStaysUntilInitOrReset : Prop :=
  ∀ s t : State, s.Inv → s.err = true → step s = .next t →
    (t.err = true ∧ t.cause = s.cause ∧ t.errCmd = s.errCmd)
    ∨ (s.pending = some ⟨.init, []⟩ ∧ s.seq.phase = .done ∧ t.err = false ∧ t.cause = .none ∧ t.errCmd = 0#32)
    ∨ (t.err = false ∧ t.cause = .none ∧ t.errCmd = 0#32
        ∧ ∃ m ∈ s.masters, ∃ rest, m.program = .assertReset :: rest)

/-- R20, R22, R223: in FINALIZED, H and count do not change until INIT completes or a reset comes. -/
def Obligations.FinalizedDigestAndCountAreFrozen : Prop :=
  ∀ s t : State, s.Inv → s.life = .finalized → step s = .next t →
    (t.h = s.h ∧ t.count = s.count)
    ∨ (s.pending = some ⟨.init, []⟩ ∧ s.seq.phase = .done ∧ t.life = .active)
    ∨ (t.life = .idle ∧ ∃ m ∈ s.masters, ∃ rest, m.program = .assertReset :: rest)

/-- R20, R22, R23, R28, R29: who writes H, count, the buffer, DATA_IN and ERR. In a step without a change of the reset input,
H changes only at the completion of a command, count only at that of INIT or an absorb, the buffer only at that of an absorb
or FINALIZE (before it the sequencer works on a copy, log 24), DATA_IN only by a master's write of it, and ERR is set only at
an acceptance and cleared only at the completion of INIT. -/
def Obligations.EachRegisterChangesOnlyByItsWriters : Prop :=
  ∀ s t : State, step s = .next t →
    (∀ m ∈ s.masters, ∀ rest, m.program ≠ .assertReset :: rest ∧ m.program ≠ .releaseReset :: rest) →
    (t.h ≠ s.h → ∃ p, s.pending = some p ∧ s.seq.phase = .done ∧ t.pending = none)
    ∧ (t.count ≠ s.count → ∃ p, s.pending = some p ∧ s.seq.phase = .done ∧ t.pending = none
        ∧ (p.cmd = .init ∨ (∃ b, p.cmd = .absorbB b) ∨ ∃ n, p.cmd = .absorbW n))
    ∧ (t.buf ≠ s.buf → ∃ p, s.pending = some p ∧ s.seq.phase = .done ∧ t.pending = none
        ∧ (p.cmd = .finalize ∨ (∃ b, p.cmd = .absorbB b) ∨ ∃ n, p.cmd = .absorbW n))
    ∧ (t.dataIn ≠ s.dataIn → ∃ m ∈ s.masters, ∃ rest, m.program = .write 0x04#6 4 t.dataIn :: rest)
    ∧ (t.err = true → s.err = false → s.pending = none ∧ s.held ≠ [])
    ∧ (t.err = false → s.err = true → ∃ p, s.pending = some p ∧ s.seq.phase = .done ∧ p.cmd = .init)

/-- R31: while a command stays pending, every register but DATA_IN reads the same after a step as before it, the block
buffer stays (R36), and DATA_IN changes only by a master's write to it. -/
def Obligations.CommittedStateIsFixedWhilePending : Prop :=
  ∀ (s t : State) (p : Pending), s.pending = some p → step s = .next t → t.pending = some p →
    t.h = s.h ∧ t.count = s.count ∧ t.buf = s.buf ∧ t.life = s.life ∧ t.err = s.err ∧ t.cause = s.cause
    ∧ t.errCmd = s.errCmd
    ∧ (∀ r : Reg, r ≠ .dataIn → t.readReg r = s.readReg r)
    ∧ (t.dataIn = s.dataIn ∨ ∃ m ∈ s.masters, ∃ rest, m.program = .write 0x04#6 4 t.dataIn :: rest)

/-- R222, R54: what a completion does does not depend on DATA_IN at the completion, so a write of DATA_IN after the
acceptance does not change the bytes absorbed. -/
def Obligations.CompletionDoesNotReadDataIn : Prop :=
  ∀ (s t : State) (p : Pending) (v : Word), s.pending = some p → exec p.cmd s = .next t →
    exec p.cmd { s with dataIn := v } = .next { t with dataIn := v } ∧ t.dataIn = s.dataIn

/-! ### Sequencer -/

/-- R117, R118, R120: the round pipeline. From the load of a compression, 66 internal steps leave `compress(H, buf)` in
the internal copy of H; the internal copy of the buffer is the same throughout, and the copy of H until the add step.
(Logs 3 and 24.) -/
def Obligations.PipelineComputesCompress : Prop :=
  ∀ (q : Sequencer) (c : Caller), q.phase = .compressing c .load →
    (Sequencer.steps 66 q).workH = compress q.workH q.workBuf
    ∧ (∀ k ≤ 66, (Sequencer.steps k q).workBuf = q.workBuf)
    ∧ (∀ k ≤ 65, (Sequencer.steps k q).workH = q.workH)

/-- R31, R141: an internal step of the sequencer does not change what the completion of the pending command gives. (Logs 3
and 11.) -/
def Obligations.SequencerStepsDoNotChangeTheCompletion : Prop :=
  ∀ (s : State) (p : Pending), s.Inv → s.pending = some p →
    exec p.cmd { s with seq := s.seq.step } = exec p.cmd s

/-- R227: the number of internal steps of a command. An absorb of `n` bytes takes one per byte and 66 per block it
completes; FINALIZE takes one per pad byte written and 66 per compression. (Logs 3 and 19.) -/
def Obligations.CommandsTakeTheCountedInternalSteps : Prop :=
  (∀ (q : Sequencer) (k : Nat), q.phase = .absorbing → q.rest ≠ [] →
      ((Sequencer.steps k q).phase = .done ↔
        q.rest.length + 66 * ((q.workCount.toNat % 64 + q.rest.length) / 64) ≤ k))
  ∧ (∀ (q : Sequencer) (k : Nat), q.phase = .pad80 → q.p = q.workCount.toNat % 64 →
      ((Sequencer.steps k q).phase = .done ↔
        (64 - q.p) + 66 + (if 56 ≤ q.p then 64 + 66 else 0) ≤ k))

/-- R141, R226: a pending command stays pending through finitely many steps of the machine, and the step after them is its
completion by `exec`, unless it asserts the reset input, which discards the command (R210), or is a master's bad access,
which ends the run (log 7). That only finitely many host turns come before each internal step of the sequencer is the model's
choice for the fairness of R226 (log 4). -/
def Obligations.EveryPendingCommandCompletes : Prop :=
  ∀ (s : State) (p : Pending), s.Inv → s.pending = some p →
    ∃ (n : Nat) (u : State), Sys2Proof.core.run n s = .next u
      ∧ (∀ k ≤ n, ∃ v : State, Sys2Proof.core.run k s = .next v ∧ v.pending = some p)
      ∧ ((∃ t : State, u.seq.phase = .done ∧ step u = exec p.cmd u ∧ exec p.cmd u = .next t ∧ t.pending = none)
        ∨ (∃ t : State, (∃ m ∈ u.masters, ∃ rest, m.program = .assertReset :: rest) ∧ step u = .next t
            ∧ t.inReset = true ∧ t.pending = none)
        ∨ ∃ f : Fault, step u = .fault f)

/-! ### Compression core -/

/-- R100, R101: Ch and Maj, as formulas and bit by bit, with the corner cases and the examples. -/
def Obligations.ChSelectsAndMajIsTheMajority : Prop :=
  (∀ x y z : Word, ch x y z = (x &&& y) ^^^ (~~~x &&& z))
  ∧ (∀ x y z : Word, maj x y z = (x &&& y) ^^^ (x &&& z) ^^^ (y &&& z))
  ∧ (∀ (x y z : Word) (i : Nat), i < 32 →
      (ch x y z).getLsbD i = (if x.getLsbD i then y.getLsbD i else z.getLsbD i))
  ∧ (∀ (x y z : Word) (i : Nat), i < 32 →
      ((maj x y z).getLsbD i = true ↔
        2 ≤ (x.getLsbD i).toNat + (y.getLsbD i).toNat + (z.getLsbD i).toNat))
  ∧ (∀ y z : Word, ch 0xFFFFFFFF#32 y z = y ∧ ch 0#32 y z = z ∧ maj y y z = y ∧ maj 0#32 0#32 z = 0#32
      ∧ maj 0xFFFFFFFF#32 y z = y ||| z)
  ∧ ch 0x510e527f#32 0x9b05688c#32 0x1f83d9ab#32 = 0x1f85c98c#32
  ∧ maj 0x6a09e667#32 0xbb67ae85#32 0x3c6ef372#32 = 0x3a6fe667#32

/-- R102 to R105: the four sigma functions as right rotations and shifts, with the corner cases and the examples. -/
def Obligations.SigmaFunctionsRotateAndShift : Prop :=
  (∀ x : Word, bigSigma0 x = x.rotateRight 2 ^^^ x.rotateRight 13 ^^^ x.rotateRight 22)
  ∧ (∀ x : Word, bigSigma1 x = x.rotateRight 6 ^^^ x.rotateRight 11 ^^^ x.rotateRight 25)
  ∧ (∀ x : Word, smallSigma0 x = x.rotateRight 7 ^^^ x.rotateRight 18 ^^^ x >>> 3)
  ∧ (∀ x : Word, smallSigma1 x = x.rotateRight 17 ^^^ x.rotateRight 19 ^^^ x >>> 10)
  ∧ bigSigma0 0#32 = 0#32 ∧ bigSigma0 0xFFFFFFFF#32 = 0xFFFFFFFF#32
  ∧ bigSigma1 0#32 = 0#32 ∧ bigSigma1 0xFFFFFFFF#32 = 0xFFFFFFFF#32
  ∧ smallSigma0 0#32 = 0#32 ∧ smallSigma0 0xFFFFFFFF#32 = 0x1FFFFFFF#32
  ∧ smallSigma1 0#32 = 0#32 ∧ smallSigma1 0xFFFFFFFF#32 = 0x003FFFFF#32
  ∧ bigSigma0 0x00000001#32 = 0x40080400#32 ∧ bigSigma0 0x6a09e667#32 = 0xce20b47e#32
  ∧ bigSigma1 0x00000001#32 = 0x04200080#32 ∧ bigSigma1 0x80000000#32 = 0x02100040#32
  ∧ smallSigma0 0x00000001#32 = 0x02004000#32 ∧ smallSigma0 0x80000000#32 = 0x11002000#32
  ∧ smallSigma1 0x00000001#32 = 0x0000a000#32 ∧ smallSigma1 0x80000000#32 = 0x00205000#32

/-- R108, R109: the schedule of a block: big-endian words for t < 16, the recurrence for 16 ≤ t ≤ 63. -/
def Obligations.ScheduleFollowsTheRecurrence : Prop :=
  (∀ (block : Vector Byte 64) (t : Nat), t < 16 →
      nth (schedule block) t
        = nth block (4 * t) ++ nth block (4 * t + 1) ++ nth block (4 * t + 2) ++ nth block (4 * t + 3))
  ∧ (∀ (block : Vector Byte 64) (t : Nat), 16 ≤ t → t < 64 →
      nth (schedule block) t
        = smallSigma1 (nth (schedule block) (t - 2)) + nth (schedule block) (t - 7)
          + smallSigma0 (nth (schedule block) (t - 15)) + nth (schedule block) (t - 16))

/-- R116: the 16-word window gives every round the same `W[t]` as the 64-word schedule. -/
def Obligations.WindowGivesTheSameSchedule : Prop :=
  ∀ (block : Vector Byte 64) (t : Nat), t < 64 → nth (windowAfter block t) (t % 16) = nth (schedule block) t

/-- R110, R111, R112, R113: a compression loads the working variables from the state, runs the rounds t = 0 to 63 in order
and adds the variables into the state, word by word. -/
def Obligations.CompressRunsTheSixtyFourRounds : Prop :=
  ∀ (H : Vector Word 8) (block : Vector Byte 64), ∃ v : Nat → WorkingVars,
    v 0 = ⟨H[0], H[1], H[2], H[3], H[4], H[5], H[6], H[7]⟩
    ∧ (∀ t < 64, ∃ T1 T2 : Word,
        T1 = (v t).h + bigSigma1 (v t).e + ch (v t).e (v t).f (v t).g + roundConstant t + nth (schedule block) t
        ∧ T2 = bigSigma0 (v t).a + maj (v t).a (v t).b (v t).c
        ∧ v (t + 1) = ⟨T1 + T2, (v t).a, (v t).b, (v t).c, (v t).d + T1, (v t).e, (v t).f, (v t).g⟩)
    ∧ compress H block
      = #v[H[0] + (v 64).a, H[1] + (v 64).b, H[2] + (v 64).c, H[3] + (v 64).d, H[4] + (v 64).e, H[5] + (v 64).f,
          H[6] + (v 64).g, H[7] + (v 64).h]

/-- R122 and the examples of R109, R111 and R121: two schedule words, round 0 and the compression of the "abc" block, and
the compression of 64 zero bytes from IV and from the zero state. -/
def Obligations.CompressionExamplesHold : Prop :=
  nth (schedule (blockOf ([0x61#8, 0x62#8, 0x63#8, 0x80#8] ++ List.replicate 59 0#8 ++ [0x18#8]))) 16 = 0x61626380#32
  ∧ nth (schedule (blockOf ([0x61#8, 0x62#8, 0x63#8, 0x80#8] ++ List.replicate 59 0#8 ++ [0x18#8]))) 17
      = 0x000f0000#32
  ∧ roundStep (loadVars initialHash) 0x428a2f98#32 0x61626380#32
      = ⟨0x5d6aebcd#32, 0x6a09e667#32, 0xbb67ae85#32, 0x3c6ef372#32, 0xfa2a4622#32, 0x510e527f#32, 0x9b05688c#32,
          0x1f83d9ab#32⟩
  ∧ compress initialHash (blockOf ([0x61#8, 0x62#8, 0x63#8, 0x80#8] ++ List.replicate 59 0#8 ++ [0x18#8]))
      = #v[0xba7816bf#32, 0x8f01cfea#32, 0x414140de#32, 0x5dae2223#32, 0xb00361a3#32, 0x96177a9c#32, 0xb410ff61#32,
          0xf20015ad#32]
  ∧ compress initialHash (Vector.replicate 64 0#8)
      = #v[0xda5698be#32, 0x17b9b469#32, 0x62335799#32, 0x779fbeca#32, 0x8ce5d491#32, 0xc0d26243#32, 0xbafef9ea#32,
          0x1837a9d8#32]
  ∧ compress (Vector.replicate 8 0#32) (Vector.replicate 64 0#8)
      = #v[0x7ca51614#32, 0x425c3ba8#32, 0xce54dd2f#32, 0xc2020ae7#32, 0xb6e574d1#32, 0x98136d0f#32, 0xae7e26cc#32,
          0xbf0be7a6#32]

/-! ### Messages -/

/-- R142, R143: absorbing one byte writes it at the fill position and nowhere else, adds 1 to count modulo 2^64, and
compresses the buffer exactly when the new count is a multiple of 64. -/
def Obligations.AbsorbingAByteWritesItAndCompressesFullBlocks : Prop :=
  ∀ (m : Message) (b : Byte),
    nth (absorb m b).buf (m.count.toNat % 64) = b
    ∧ (∀ j : Nat, j ≠ m.count.toNat % 64 → nth (absorb m b).buf j = nth m.buf j)
    ∧ (absorb m b).count.toNat = (m.count.toNat + 1) % 2 ^ 64
    ∧ ((absorb m b).count.toNat % 64 = 0 → (absorb m b).h = compress m.h (absorb m b).buf)
    ∧ ((absorb m b).count.toNat % 64 ≠ 0 → (absorb m b).h = m.h)

/-- R149: the length field is `(8 · L) mod 2^64`, the exact bit length below 2^61 bytes, and the padding leaves it in
`buf[56..63]`, most significant byte first. -/
def Obligations.PaddingEndsWithTheLengthField : Prop :=
  (∀ len : Count, (lengthField len).toNat = 8 * len.toNat % 2 ^ 64)
  ∧ (∀ len : Count, len.toNat < 2 ^ 61 → (lengthField len).toNat = 8 * len.toNat)
  ∧ (∀ (m : Message) (k : Nat), k < 8 →
      nth (pad m).buf (56 + k) = (lengthField m.count).extractLsb' (56 - 8 * k) 8)
  ∧ lengthField 3#64 = 0x18#64 ∧ lengthField (BitVec.ofNat 64 (2 ^ 61 - 1)) = 0xfffffffffffffff8#64
  ∧ lengthField (BitVec.ofNat 64 (2 ^ 61)) = 0#64

/-- R147, R150, R151: with `L mod 64 ≤ 55` the padding is one compression, of the block that holds the message bytes, 0x80,
zeros and the length; otherwise it is two, the first of the block filled up with zeros, the second of zeros and the
length. The last block is left in the buffer, and count is not changed. -/
def Obligations.PaddingRunsOneOrTwoCompressions : Prop :=
  ∀ m : Message,
    (pad m).count = m.count
    ∧ (∀ k < 8, nth (pad m).buf (56 + k) = (8#64 * m.count).extractLsb' (56 - 8 * k) 8)
    ∧ (m.count.toNat % 64 ≤ 55 →
        (∀ j < 56, nth (pad m).buf j = if j < m.count.toNat % 64 then nth m.buf j
          else if j = m.count.toNat % 64 then 0x80#8 else 0#8)
        ∧ (pad m).h = compress m.h (pad m).buf)
    ∧ (56 ≤ m.count.toNat % 64 →
        (∀ j < 56, nth (pad m).buf j = 0#8)
        ∧ ∃ first : Vector Byte 64,
          (∀ j < 64, nth first j = if j < m.count.toNat % 64 then nth m.buf j
            else if j = m.count.toNat % 64 then 0x80#8 else 0#8)
          ∧ (pad m).h = compress (compress m.h first) (pad m).buf)

/-- R146: no compression reads a stale buffer byte: two messages that differ in the bytes at and beyond the fill position
alone get the same H from the same bytes and the same padding. -/
def Obligations.StaleBufferBytesAreNeverCompressed : Prop :=
  ∀ (m : Message) (buf' : Vector Byte 64) (bytes : List Byte),
    (∀ j < m.count.toNat % 64, nth buf' j = nth m.buf j) →
    (absorbAll { m with buf := buf' } bytes).h = (absorbAll m bytes).h
    ∧ (pad (absorbAll { m with buf := buf' } bytes)).h = (pad (absorbAll m bytes)).h

/-- R145: chunking invariance. Two sequences of ABSORB.B and ABSORB.W commands that absorb the same bytes in order end
with the same H, count and live buffer bytes, and a FINALIZE after them gives the same digest. -/
def Obligations.DigestDoesNotDependOnChunking : Prop :=
  ∀ (s : State) (cs cs' : List Chunk), s.pending = none → s.life = .active →
    (∀ c ∈ cs, c.wf = true) → (∀ c ∈ cs', c.wf = true) → cs.flatMap Chunk.bytes = cs'.flatMap Chunk.bytes →
    ∃ t t' u u' : State, runChunks cs s = .next t ∧ runChunks cs' s = .next t'
      ∧ t.h = t'.h ∧ t.count = t'.count ∧ (∀ j < t.count.toNat % 64, nth t.buf j = nth t'.buf j)
      ∧ t.life = .active ∧ t.pending = none ∧ t'.life = .active ∧ t'.pending = none
      ∧ runCommand .finalize t = .next u ∧ runCommand .finalize t' = .next u'
      ∧ u.life = .finalized ∧ u'.life = .finalized ∧ ∀ i : Fin 8, u.readReg (.digest i) = u'.readReg (.digest i)

/-- R161: the digest law. From any state with nothing pending, INIT, the commands that absorb the bytes of a message
shorter than 2^61 bytes, and FINALIZE end in FINALIZED, without an error, with count the message's length and the DIGEST
registers the SHA-256 words of the message: the padded message compressed block by block from IV. -/
def Obligations.DigestRegistersHoldTheSha256OfTheMessage : Prop :=
  ∀ (s : State) (cs : List Chunk) (bytes : List Byte), s.pending = none → (∀ c ∈ cs, c.wf = true) →
    cs.flatMap Chunk.bytes = bytes → bytes.length < 2 ^ 61 →
    ∃ t : State, runDigest cs s = .next t ∧ t.life = .finalized ∧ t.pending = none ∧ t.err = false
      ∧ t.count = BitVec.ofNat 64 bytes.length
      ∧ ∀ i : Fin 8, t.readReg (.digest i) = nth (sha256 bytes) i.val

/-! ### Register window -/

/-- R55: STATUS field by field, and that a write to it is ignored. -/
def Obligations.StatusShowsItsFields : Prop :=
  ∀ s : State,
    ((s.readReg .status).extractLsb' 0 2).toNat = (if s.life = .finalized then 2 else if s.life = .active then 1 else 0)
    ∧ ((s.readReg .status).getLsbD 2 = true ↔ s.pending ≠ none)
    ∧ (s.readReg .status).getLsbD 3 = s.err
    ∧ (s.readReg .status).extractLsb' 4 4 = 0#4
    ∧ ((s.readReg .status).extractLsb' 8 6).toNat = s.count.toNat % 64
    ∧ (s.readReg .status).extractLsb' 14 18 = 0#18
    ∧ ∀ (k : Nat) (v : Word), s.writeReg k .status v = s

/-- R51, R53 to R60: what a 32-bit read of each offset of the window returns. -/
def Obligations.WindowReadsFollowTheRegisterMap : Prop :=
  ∀ s : State,
    (regAt 0x00#6 4).map s.readReg = some 0#32
    ∧ (regAt 0x04#6 4).map s.readReg = some s.dataIn
    ∧ (regAt 0x08#6 4).map s.readReg = some s.status
    ∧ (regAt 0x0C#6 4).map s.readReg
        = some (if s.cause = .illegalCmd then 1#32 else if s.cause = .absorbNotActive then 2#32
          else if s.cause = .finalizeNotActive then 3#32 else 0#32)
    ∧ (regAt 0x10#6 4).map s.readReg = some (s.count.extractLsb' 0 32)
    ∧ (regAt 0x14#6 4).map s.readReg = some (s.count.extractLsb' 32 32)
    ∧ (regAt 0x18#6 4).map s.readReg = some s.errCmd
    ∧ (regAt 0x1C#6 4).map s.readReg = some 0#32
    ∧ ∀ i : Fin 8, (regAt (BitVec.ofNat 6 (0x20 + 4 * i.val)) 4).map s.readReg
        = some (if s.life = .finalized then s.h[i] else 0#32)

/-- R58: the 32-byte digest: byte `k` is byte `k mod 4`, most significant first, of DIGEST(k div 4). -/
def Obligations.DigestBytesAreBigEndian : Prop :=
  ∀ (s : State) (k : Nat) (h : k < 32), s.life = .finalized →
    s.digestByte k = (s.h[k / 4]'(by omega)).extractLsb' (24 - 8 * (k % 4)) 8

/-- R52, R190: an access of another width or at another offset faults, whatever the state; a 32-bit access at a multiple
of 4 does not. (Log 7.) -/
def Obligations.OnlyAlignedWordAccessesAreAnswered : Prop :=
  ∀ (s : State) (k : Nat) (m : Master) (rest : List HostOp) (off : BitVec 6) (width dst : Nat) (v : Word),
    ((width ≠ 4 ∨ off.toNat % 4 ≠ 0) →
      performOp k m (.write off width v) rest s = .fault (.busError off width)
      ∧ performOp k m (.read off width dst) rest s = .fault (.busError off width))
    ∧ (width = 4 → off.toNat % 4 = 0 →
      (∃ t, performOp k m (.write off width v) rest s = .next t)
      ∧ ∃ t, performOp k m (.read off width dst) rest s = .next t)

/-- R54, R62, R60, R220, R210: writes. CMD offers the word, to be held until it is accepted; DATA_IN stores, even while a
command is pending; a write of any other register changes nothing of the engine, and neither does any write while the reset
input is asserted (log 9). (The list of held writes: log 6.) -/
def Obligations.WritesReachCmdAndDataInOnly : Prop :=
  ∀ (s : State) (k : Nat) (m : Master) (rest : List HostOp) (v : Word),
    (s.inReset = false → performOp k m (.write 0x00#6 4 v) rest s
      = .next { s with masters := s.masters.set k { m with program := rest }, held := s.held ++ [⟨k, v⟩] })
    ∧ (s.inReset = false → performOp k m (.write 0x04#6 4 v) rest s
      = .next { s with masters := s.masters.set k { m with program := rest }, dataIn := v })
    ∧ ∀ off : BitVec 6, off.toNat % 4 = 0 → s.inReset = true ∨ (off ≠ 0x00#6 ∧ off ≠ 0x04#6) →
      performOp k m (.write off 4 v) rest s
        = .next { s with masters := s.masters.set k { m with program := rest } }

/-- R61, R90: reads have no side effect on the engine. A read puts the register's value in the host variable; a poll goes
on when the masked value is the awaited one and else stays. -/
def Obligations.ReadsChangeNothingOfTheEngine : Prop :=
  ∀ (s : State) (k : Nat) (m : Master) (rest : List HostOp) (off : BitVec 6) (r : Reg), regAt off 4 = some r →
    (∀ dst : Nat, performOp k m (.read off 4 dst) rest s
      = .next { s with masters := s.masters.set k ⟨rest, setVar m.vars dst (s.readReg r)⟩ })
    ∧ (∀ mask v : Word, s.readReg r &&& mask = v → performOp k m (.poll off mask v) rest s
      = .next { s with masters := s.masters.set k { m with program := rest } })
    ∧ (∀ mask v : Word, s.readReg r &&& mask ≠ v → performOp k m (.poll off mask v) rest s = .next s)

/-- The engine's registers after reset all read 0 (R35, R51, R212), whatever the host programs. -/
def Obligations.AllRegistersReadZeroAfterReset : Prop :=
  ∀ (masters : List Master) (r : Reg), (State.afterReset masters).readReg r = 0#32

/-- R210: when the reset input is asserted, from any state, and when it is released, the engine takes its reset values: IDLE,
nothing pending, no write held, the error record clear, count and DATA_IN 0, every register reads 0; the host goes on.
Releasing an input that is not asserted does nothing. (The host's side: log 9.) -/
def Obligations.ResetClearsTheEngine : Prop :=
  ∀ (s : State) (k : Nat) (m : Master) (rest : List HostOp),
    (∃ t : State, performOp k m .assertReset rest s = .next t ∧ t.inReset = true ∧ t.life = .idle ∧ t.pending = none
      ∧ t.held = [] ∧ t.err = false ∧ t.cause = .none ∧ t.errCmd = 0#32 ∧ t.count = 0#64 ∧ t.dataIn = 0#32
      ∧ (∀ r : Reg, t.readReg r = 0#32) ∧ t.masters = s.masters.set k { m with program := rest })
    ∧ (s.inReset = true → ∃ t : State, performOp k m .releaseReset rest s = .next t ∧ t.inReset = false
      ∧ t.life = .idle ∧ t.pending = none ∧ t.held = [] ∧ t.err = false ∧ t.cause = .none ∧ t.errCmd = 0#32
      ∧ t.count = 0#64 ∧ t.dataIn = 0#32 ∧ (∀ r : Reg, t.readReg r = 0#32)
      ∧ t.masters = s.masters.set k { m with program := rest })
    ∧ (s.inReset = false → performOp k m .releaseReset rest s
      = .next { s with masters := s.masters.set k { m with program := rest } })

/-- R58, R35: outside FINALIZED no register shows H, the buffer or the sequencer's state: changing them changes no read. -/
def Obligations.HashIsHiddenOutsideFinalized : Prop :=
  ∀ (s : State) (h' : Vector Word 8) (buf' : Vector Byte 64) (q : Sequencer), s.life ≠ .finalized →
    ({ s with h := h', buf := buf', seq := q } : State).window = s.window

/-- R50: ENGINE_BASE is a multiple of 64, and exactly the addresses of the 64 bytes from it are in the window, each at its
own offset. -/
def Obligations.WindowIsTheSixtyFourBytesAtTheBase : Prop :=
  Config.engineBase % 64 = 0
  ∧ (∀ off : BitVec 6, windowOffset (Config.engineBase + off.toNat) = some off)
  ∧ (∀ addr : Nat, windowOffset addr = none ↔ addr < Config.engineBase ∨ Config.engineBase + 64 ≤ addr)

/-! ### The message in the engine, and the reset input held asserted -/

/-- R36: once the commands that absorb a message have completed, the buffer bytes below the fill position are the last
`count mod 64` message bytes, in order. -/
def Obligations.LiveBufferBytesAreTheLastMessageBytes : Prop :=
  ∀ (s : State) (cs : List Chunk) (bytes : List Byte), s.pending = none → (∀ c ∈ cs, c.wf = true) →
    cs.flatMap Chunk.bytes = bytes →
    ∃ t : State, (runCommand .init s).andThen (runChunks cs) = .next t ∧ t.life = .active ∧ t.pending = none
      ∧ t.count = BitVec.ofNat 64 bytes.length
      ∧ ∀ j < t.count.toNat % 64, bytes[bytes.length - t.count.toNat % 64 + j]? = some (nth t.buf j)

/-- R36: every step keeps count, H and the live buffer bytes at what the message bytes absorbed since the last INIT give,
in every state, also while a command is pending: in ACTIVE the buffer bytes below `count mod 64` are the last message bytes,
and in FINALIZED H is the digest of a message shorter than 2^61 bytes (R161). -/
def Obligations.EveryStepKeepsTheMessage : Prop :=
  ∀ (s t : State) (bytes : List Byte), s.Inv → s.holdsMessage bytes → step s = .next t →
    t.holdsMessage (messageAfter s t bytes)

/-- R36, R35: after reset, with any host programs, the message is empty. -/
def Obligations.NoMessageAfterReset : Prop :=
  ∀ masters : List Master, (State.afterReset masters).holdsMessage []

/-- R210: while the reset input is asserted every step leaves the reset values, whatever the masters do. The last clause is
the model's choice (log 9): the spec does not say who drives the reset input, and here it stays asserted until a master's
program releases it. -/
def Obligations.AssertedResetHoldsTheResetValues : Prop :=
  ∀ s t : State, s.Inv → s.inReset = true → step s = .next t →
    t.life = .idle ∧ t.pending = none ∧ t.held = [] ∧ t.err = false ∧ t.cause = .none ∧ t.errCmd = 0#32
    ∧ t.count = 0#64 ∧ t.dataIn = 0#32 ∧ (∀ r : Reg, t.readReg r = 0#32)
    ∧ (t.inReset = true ∨ ∃ m ∈ s.masters, ∃ rest, m.program = .releaseReset :: rest)
end

