-- ==== Sys2Proof/Laws/Operands.lean ====
section
/-! SUPPORT. Reading after writing one entry of a buffer, and the sizes and ranges of operands. -/
namespace Sys2Proof.Machine

theorem nth_put {k n : Nat} (v : Vector (BitVec k) n) (i j : Nat) (x : BitVec k) :
    nth (put v i x) j = if i = j ∧ i < n then x else nth v j := by
  unfold nth put
  rw [Vector.getElem?_setIfInBounds]
  by_cases h : i = j
  · subst h
    by_cases hi : i < n
    · simp [hi]
    · simp [hi]
  · simp [h]

theorem nth_put_same {k n : Nat} (v : Vector (BitVec k) n) (i : Nat) (x : BitVec k) (h : i < n) :
    nth (put v i x) i = x := by simp [nth_put, h]

theorem nth_put_ne {k n : Nat} (v : Vector (BitVec k) n) {i j : Nat} (x : BitVec k) (h : i ≠ j) :
    nth (put v i x) j = nth v j := by simp [nth_put, h]

@[simp] theorem nth_replicate {k n : Nat} (x : BitVec k) (i : Nat) :
    nth (Vector.replicate n x) i = if i < n then x else 0#k := by
  unfold nth
  by_cases h : i < n <;> simp [h]

theorem nth_of_le {k n : Nat} (v : Vector (BitVec k) n) {i : Nat} (h : n ≤ i) : nth v i = 0#k := by
  unfold nth
  simp [h]

/-- Two vectors with the same entries are equal. -/
theorem vector_ext_nth {k n : Nat} {v w : Vector (BitVec k) n} (h : ∀ i < n, nth v i = nth w i) : v = w := by
  ext i hi : 1
  have := h i hi
  unfold nth at this
  simpa [hi] using this

theorem fill_lt (c : Count) : fill c < 64 := Nat.mod_lt _ (by decide)

/-- The fill position after one more byte, through the counter's wrap (41_commands.md R142). -/
theorem fill_succ (c : Count) : fill (c + 1#64) = (fill c + 1) % 64 := by
  unfold fill
  have : (c + 1#64).toNat = (c.toNat + 1) % 2 ^ 64 := by simp [BitVec.toNat_add]
  omega

theorem captureBytes_length {n : Nat} (v : Word) (h : n ≤ 4) : (captureBytes n v).length = n := by
  simp [captureBytes, h]

@[simp] theorem capture_absorbB (b : Byte) (v : Word) : capture (.absorbB b) v = [b] := rfl

@[simp] theorem capture_absorbW (n : Nat) (v : Word) : capture (.absorbW n) v = captureBytes n v := rfl

@[simp] theorem capture_init (v : Word) : capture .init v = [] := rfl

@[simp] theorem capture_finalize (v : Word) : capture .finalize v = [] := rfl

end Sys2Proof.Machine
end

