-- ==== Sys2Proof/Laws/Compression.lean ====
section
/-! SUPPORT. The schedule as the rounds build it: which entries the load step and round `t` write, and that what the
schedule held before does not matter. -/
namespace Sys2Proof.Machine

/-- The schedule after the load step and rounds 0 to `k - 1`, on a schedule that held `w`. -/
def scheduleAfter (block : Vector Byte 64) (w : Vector Word 64) (k : Nat) : Vector Word 64 :=
  (List.range k).foldl extendSchedule (loadSchedule block w)

/-- The working variables after rounds 0 to `k - 1`. -/
def varsAfter (w : Vector Word 64) (v : WorkingVars) (k : Nat) : WorkingVars :=
  (List.range k).foldl (fun v t => roundStep v (roundConstant t) (nth w t)) v

theorem nth_foldl_put {k n : Nat} (f : Nat → BitVec k) (m : Nat) (hm : m ≤ n) (v : Vector (BitVec k) n) (j : Nat) :
    nth ((List.range m).foldl (fun v t => put v t (f t)) v) j = if j < m then f j else nth v j := by
  induction m with
  | zero => simp
  | succ m ih =>
    rw [List.range_succ, List.foldl_append, List.foldl_cons, List.foldl_nil, nth_put, ih (by omega)]
    by_cases h : m = j
    · subst h
      simp [show m < n by omega]
    · have : (j < m + 1) = (j < m) := by simp; omega
      simp [h, this]

theorem nth_loadSchedule (block : Vector Byte 64) (w : Vector Word 64) (j : Nat) :
    nth (loadSchedule block w) j = if j < 16 then blockWord block j else nth w j := by
  have h := nth_foldl_put (blockWord block) 16 (by omega) w j
  exact h

@[simp] theorem scheduleAfter_zero (block : Vector Byte 64) (w : Vector Word 64) :
    scheduleAfter block w 0 = loadSchedule block w := by
  simp only [scheduleAfter, List.range_zero, List.foldl_nil]

theorem scheduleAfter_succ (block : Vector Byte 64) (w : Vector Word 64) (k : Nat) :
    scheduleAfter block w (k + 1) = extendSchedule (scheduleAfter block w k) k := by
  simp [scheduleAfter, List.range_succ]

@[simp] theorem varsAfter_zero (w : Vector Word 64) (v : WorkingVars) : varsAfter w v 0 = v := by
  simp only [varsAfter, List.range_zero, List.foldl_nil]

theorem varsAfter_succ (w : Vector Word 64) (v : WorkingVars) (k : Nat) :
    varsAfter w v (k + 1) = roundStep (varsAfter w v k) (roundConstant k) (nth w k) := by
  simp [varsAfter, List.range_succ]

/-- Round `k` writes entry `k` alone, and only when k ≥ 16 (R117). -/
theorem nth_extendSchedule (w : Vector Word 64) (k j : Nat) :
    nth (extendSchedule w k) j = if k = j ∧ 16 ≤ k ∧ k < 64 then recurrence w k else nth w j := by
  unfold extendSchedule
  by_cases h : k < 16
  · have : ¬ (k = j ∧ 16 ≤ k ∧ k < 64) := by omega
    simp [h, this]
  · rw [if_neg h, nth_put]
    have : (k = j ∧ 16 ≤ k ∧ k < 64) = (k = j ∧ k < 64) := by simp; omega
    simp only [this]

/-- The recurrence for entry `k` reads entries below `k` only (R109). -/
theorem recurrence_congr {w w' : Vector Word 64} {k : Nat} (hk : 16 ≤ k) (h : ∀ j < k, nth w j = nth w' j) :
    recurrence w k = recurrence w' k := by
  unfold recurrence
  rw [h (k - 2) (by omega), h (k - 7) (by omega), h (k - 15) (by omega), h (k - 16) (by omega)]

/-- What the schedule held before the load does not matter to an entry already written. -/
theorem scheduleAfter_congr (block : Vector Byte 64) (w w' : Vector Word 64) (k : Nat) :
    ∀ j, j < 16 ∨ j < k → nth (scheduleAfter block w k) j = nth (scheduleAfter block w' k) j := by
  induction k with
  | zero =>
    intro j hj
    have : j < 16 := by omega
    simp [nth_loadSchedule, this]
  | succ k ih =>
    intro j hj
    rw [scheduleAfter_succ, scheduleAfter_succ, nth_extendSchedule, nth_extendSchedule]
    by_cases h : k = j ∧ 16 ≤ k ∧ k < 64
    · rw [if_pos h, if_pos h]
      exact recurrence_congr h.2.1 fun i hi => ih i (Or.inr hi)
    · rw [if_neg h, if_neg h]
      by_cases hjk : j < 16 ∨ j < k
      · exact ih j hjk
      · have hj64 : 64 ≤ j := by omega
        rw [nth_of_le _ hj64, nth_of_le _ hj64]

/-- A written entry stays: later rounds do not change entry `j`. -/
theorem scheduleAfter_stable (block : Vector Byte 64) (w : Vector Word 64) {j k : Nat} (hj : j < 16 ∨ j < k) :
    ∀ d, nth (scheduleAfter block w (k + d)) j = nth (scheduleAfter block w k) j := by
  intro d
  induction d with
  | zero => rfl
  | succ d ih =>
    rw [← Nat.add_assoc, scheduleAfter_succ, nth_extendSchedule]
    have : ¬ (k + d = j ∧ 16 ≤ k + d ∧ k + d < 64) := by omega
    rw [if_neg this, ih]

theorem schedule_eq (block : Vector Byte 64) :
    schedule block = scheduleAfter block (Vector.replicate 64 0#32) 64 := by
  rw [schedule, scheduleAfter]

/-- In round `t` the schedule entry used is `W[t]` of the whole schedule (R117, R109). -/
theorem nth_scheduleAfter_round (block : Vector Byte 64) (w : Vector Word 64) {t : Nat} (ht : t < 64) :
    nth (scheduleAfter block w (t + 1)) t = nth (schedule block) t := by
  have h := scheduleAfter_stable block (Vector.replicate 64 0#32) (Or.inr (Nat.lt_succ_self t)) (63 - t)
  rw [show t.succ + (63 - t) = 64 by omega] at h
  rw [schedule_eq, h, scheduleAfter_congr block w _ _ t (Or.inr (Nat.lt_succ_self t))]

theorem compress_eq (h : Vector Word 8) (block : Vector Byte 64) :
    compress h block = addVars h (varsAfter (schedule block) (loadVars h) 64) := by
  rw [compress, rounds, varsAfter]

end Sys2Proof.Machine
end

