-- ==== Sys2Proof/Laws/Sequencer.lean ====
section
/-! SUPPORT. What runs of the sequencer's internal steps come to: a compression, the absorb path and the padding, each
equal to the whole effect that the spec writes. -/
namespace Sys2Proof.Machine

@[simp] theorem steps_zero (q : Sequencer) : Sequencer.steps 0 q = q := rfl

theorem steps_succ (n : Nat) (q : Sequencer) : Sequencer.steps (n + 1) q = Sequencer.steps n q.step := rfl

theorem steps_add (m n : Nat) (q : Sequencer) :
    Sequencer.steps (m + n) q = Sequencer.steps n (Sequencer.steps m q) := by
  induction m generalizing q with
  | zero => simp
  | succ m ih => rw [Nat.succ_add, steps_succ, ih, steps_succ]

theorem steps_succ_last (n : Nat) (q : Sequencer) :
    Sequencer.steps (n + 1) q = (Sequencer.steps n q).step := by
  rw [steps_add, steps_succ, steps_zero]

theorem step_done {q : Sequencer} (h : q.phase = .done) : q.step = q := by simp [Sequencer.step, h]

theorem step_idle {q : Sequencer} (h : q.phase = .idle) : q.step = q := by simp [Sequencer.step, h]

theorem step_absorbing {q : Sequencer} {b : Byte} {rest : List Byte} (h : q.phase = .absorbing)
    (hr : q.rest = b :: rest) : q.step = q.absorbByte b rest := by simp [Sequencer.step, h, hr]

theorem step_load {q : Sequencer} {c : Caller} (h : q.phase = .compressing c .load) : q.step = q.loadStep c := by
  simp [Sequencer.step, h]

theorem step_round {q : Sequencer} {c : Caller} (h : q.phase = .compressing c .round) : q.step = q.roundStep c := by
  simp [Sequencer.step, h]

theorem step_add {q : Sequencer} {c : Caller} (h : q.phase = .compressing c .add) : q.step = q.addStep c := by
  simp [Sequencer.step, h]

/-- A compression that has been loaded and has run rounds 0 to `k - 1` (R117). -/
def Sequencer.afterRounds (q : Sequencer) (c : Caller) (k : Nat) : Sequencer :=
  { q with
    vars := varsAfter (schedule q.workBuf) (loadVars q.workH) k
    w := scheduleAfter q.workBuf q.w k
    t := k
    phase := .compressing c .round }

theorem loadStep_eq (q : Sequencer) (c : Caller) : q.loadStep c = q.afterRounds c 0 := by
  simp [Sequencer.loadStep, Sequencer.afterRounds]

theorem afterRounds_step {q : Sequencer} {c : Caller} {k : Nat} (hk : k < 63) :
    (q.afterRounds c k).step = q.afterRounds c (k + 1) := by
  have hw := nth_scheduleAfter_round q.workBuf q.w (t := k) (by omega)
  rw [step_round (c := c) rfl]
  simp [Sequencer.roundStep, Sequencer.afterRounds, hk, varsAfter_succ, scheduleAfter_succ] at hw ⊢
  rw [hw]

theorem steps_load_rounds {q : Sequencer} {c : Caller} (h : q.phase = .compressing c .load) {k : Nat} (hk : k ≤ 63) :
    Sequencer.steps (1 + k) q = q.afterRounds c k := by
  induction k with
  | zero => rw [Nat.add_zero, steps_succ, steps_zero, step_load h, loadStep_eq]
  | succ k ih => rw [← Nat.add_assoc, steps_succ_last, ih (by omega), afterRounds_step (by omega)]

/-- A compression whose 64 rounds have run and whose add step comes next (R117). -/
def Sequencer.beforeAdd (q : Sequencer) (c : Caller) : Sequencer :=
  { q with
    vars := varsAfter (schedule q.workBuf) (loadVars q.workH) 64
    w := scheduleAfter q.workBuf q.w 64
    t := 63
    phase := .compressing c .add }

theorem steps_to_add {q : Sequencer} {c : Caller} (h : q.phase = .compressing c .load) :
    Sequencer.steps 65 q = q.beforeAdd c := by
  have hw := nth_scheduleAfter_round q.workBuf q.w (t := 63) (by omega)
  rw [show (65 : Nat) = (1 + 63) + 1 from rfl, steps_succ_last, steps_load_rounds h (by omega),
    step_round (c := c) rfl]
  have hv := varsAfter_succ (schedule q.workBuf) (loadVars q.workH) 63
  have hs := scheduleAfter_succ q.workBuf q.w 63
  simp [Sequencer.roundStep, Sequencer.afterRounds, Sequencer.beforeAdd] at hw ⊢
  rw [hv, hs]
  rw [← hw, hs]
  exact ⟨rfl, rfl⟩

/-- The sequencer right after the add step, with the compressed H (R117, R120). -/
def Sequencer.compressed (q : Sequencer) (c : Caller) : Sequencer := (q.beforeAdd c).addStep c

/-- A whole compression takes 66 internal steps (R227). -/
theorem steps_compress {q : Sequencer} {c : Caller} (h : q.phase = .compressing c .load) :
    Sequencer.steps 66 q = q.compressed c := by
  rw [show (66 : Nat) = 65 + 1 from rfl, steps_succ_last, steps_to_add h, step_add (c := c) rfl]
  rfl

@[simp] theorem compressed_workH (q : Sequencer) (c : Caller) :
    (q.compressed c).workH = compress q.workH q.workBuf := by
  rw [compress_eq]
  cases c <;> rfl

@[simp] theorem compressed_workBuf (q : Sequencer) (c : Caller) : (q.compressed c).workBuf = q.workBuf := by cases c <;> rfl

@[simp] theorem compressed_workCount (q : Sequencer) (c : Caller) : (q.compressed c).workCount = q.workCount := by
  cases c <;> rfl

@[simp] theorem compressed_rest (q : Sequencer) (c : Caller) : (q.compressed c).rest = q.rest := by cases c <;> rfl

@[simp] theorem compressed_phase_absorb (q : Sequencer) : (q.compressed .absorb).phase = absorbPhase q.rest := rfl

@[simp] theorem compressed_phase_pad1 (q : Sequencer) : (q.compressed .pad1).phase = .padZero := rfl

@[simp] theorem compressed_p_pad1 (q : Sequencer) : (q.compressed .pad1).p = 0 := rfl

@[simp] theorem compressed_phase_pad2 (q : Sequencer) : (q.compressed .pad2).phase = .done := rfl

theorem absorbSteps_wrap (pos n : Nat) (h : pos = 63) : absorbSteps pos (n + 1) = 1 + (66 + absorbSteps 0 n) := by
  unfold absorbSteps
  omega

theorem absorbSteps_succ (pos n : Nat) : absorbSteps pos (n + 1) = 1 + absorbSteps (pos + 1) n := by
  unfold absorbSteps
  rw [show pos + (n + 1) = pos + 1 + n by omega]
  omega

/-- The absorb path run to its end: the `absorb` calls on the bytes in order (R142, R145). -/
theorem steps_absorb (rest : List Byte) (q : Sequencer) (hr : q.rest = rest) (hp : q.phase = absorbPhase rest) :
    (Sequencer.steps (absorbSteps (fill q.workCount) rest.length) q).message = absorbAll q.message rest
      ∧ (Sequencer.steps (absorbSteps (fill q.workCount) rest.length) q).phase = .done
      ∧ (Sequencer.steps (absorbSteps (fill q.workCount) rest.length) q).rest = [] := by
  induction rest generalizing q with
  | nil =>
    have h0 : absorbSteps (fill q.workCount) 0 = 0 := by
      have := fill_lt q.workCount
      unfold absorbSteps
      omega
    simp only [List.length_nil, h0, steps_zero]
    exact ⟨rfl, by simpa [absorbPhase] using hp, hr⟩
  | cons b rest ih =>
    have hstep : q.step = q.absorbByte b rest := step_absorbing (by simpa [absorbPhase] using hp) hr
    have hfill := fill_succ q.workCount
    have hlt := fill_lt q.workCount
    by_cases hw : fill (q.workCount + 1#64) = 0
    · have h63 : fill q.workCount = 63 := by omega
      have hload : (q.absorbByte b rest).phase = .compressing .absorb .load := by
        simp [Sequencer.absorbByte, hw]
      have hsteps : Sequencer.steps (absorbSteps (fill q.workCount) (b :: rest).length) q
          = Sequencer.steps (absorbSteps 0 rest.length) ((q.absorbByte b rest).compressed .absorb) := by
        rw [List.length_cons, absorbSteps_wrap _ _ h63, steps_add, steps_succ, steps_zero, hstep, steps_add,
          steps_compress hload]
      have := ih ((q.absorbByte b rest).compressed .absorb) (by simp [Sequencer.absorbByte])
        (by simp [Sequencer.absorbByte])
      have hf0 : fill ((q.absorbByte b rest).compressed .absorb).workCount = 0 := by
        simpa [Sequencer.absorbByte] using hw
      rw [hf0] at this
      rw [hsteps]
      refine ⟨this.1.trans ?_, this.2⟩
      simp [absorbAll, Sequencer.message, absorb, hw, Sequencer.absorbByte]
    · have hphase : (q.absorbByte b rest).phase = absorbPhase rest := by simp [Sequencer.absorbByte, hw]
      have hcount : fill (q.absorbByte b rest).workCount = fill q.workCount + 1 := by
        simp only [Sequencer.absorbByte]
        omega
      have hsteps : Sequencer.steps (absorbSteps (fill q.workCount) (b :: rest).length) q
          = Sequencer.steps (absorbSteps (fill (q.absorbByte b rest).workCount) rest.length)
              (q.absorbByte b rest) := by
        rw [List.length_cons, absorbSteps_succ, steps_add, steps_succ, steps_zero, hstep, hcount]
      have := ih (q.absorbByte b rest) rfl hphase
      rw [hsteps]
      refine ⟨this.1.trans ?_, this.2⟩
      simp [absorbAll, Sequencer.message, absorb, hw, Sequencer.absorbByte]

/-- An absorb run to DONE. -/
theorem run_absorb {q : Sequencer} (hp : q.phase = .absorbing) (hr : q.rest ≠ []) :
    q.run.message = absorbAll q.message q.rest ∧ q.run.phase = .done ∧ q.run.rest = [] := by
  have : q.stepsLeft = absorbSteps (fill q.workCount) q.rest.length := by simp [Sequencer.stepsLeft, hp]
  unfold Sequencer.run
  rw [this]
  exact steps_absorb q.rest q rfl (by simp [absorbPhase, hr, hp])

theorem zeroFill_step (buf : Vector Byte 64) {p stop : Nat} (h : p < stop) :
    zeroFill (put buf p 0#8) (p + 1) stop = zeroFill buf p stop := by
  unfold zeroFill
  rw [show stop - p = (stop - (p + 1)) + 1 by omega, List.range'_succ, List.foldl_cons]

theorem zeroFill_done (buf : Vector Byte 64) {p stop : Nat} (h : stop ≤ p) : zeroFill buf p stop = buf := by
  unfold zeroFill
  rw [show stop - p = 0 by omega, List.range'_zero, List.foldl_nil]

/-- PAD_ZERO_TAIL run to its end (R147). -/
theorem steps_padZeroTail (n : Nat) (q : Sequencer) (hp : q.phase = .padZeroTail) (hn : q.p + (n + 1) = 64) :
    Sequencer.steps (n + 1) q
      = { q with workBuf := zeroFill q.workBuf q.p 64, p := 64, phase := .compressing .pad1 .load } := by
  induction n generalizing q with
  | zero =>
    have h63 : q.p = 63 := by omega
    rw [steps_succ, steps_zero]
    simp only [Sequencer.step, hp, Sequencer.padByte, h63]
    rfl
  | succ n ih =>
    have hlt : q.p + 1 < 64 := by omega
    rw [steps_succ, ih q.step (by simp [Sequencer.step, hp, Sequencer.padByte, hlt])
      (by simp only [Sequencer.step, hp, Sequencer.padByte]; omega)]
    simp only [Sequencer.step, hp, Sequencer.padByte, zeroFill_step q.workBuf (p := q.p) (stop := 64) (by omega)]

/-- PAD_ZERO run to its end (R147). -/
theorem steps_padZero (n : Nat) (q : Sequencer) (hp : q.phase = .padZero) (hn : q.p + (n + 1) = 56) :
    Sequencer.steps (n + 1) q = { q with workBuf := zeroFill q.workBuf q.p 56, p := 56, phase := .padLen } := by
  induction n generalizing q with
  | zero =>
    have h55 : q.p = 55 := by omega
    rw [steps_succ, steps_zero]
    simp only [Sequencer.step, hp, Sequencer.padByte, h55]
    rfl
  | succ n ih =>
    have hlt : q.p + 1 < 56 := by omega
    rw [steps_succ, ih q.step (by simp [Sequencer.step, hp, Sequencer.padByte, hlt])
      (by simp only [Sequencer.step, hp, Sequencer.padByte]; omega)]
    simp only [Sequencer.step, hp, Sequencer.padByte, zeroFill_step q.workBuf (p := q.p) (stop := 56) (by omega)]

/-- PAD_LEN after `k` of its 8 bytes (R147, R149). -/
theorem steps_padLen_prefix (q : Sequencer) (hp : q.phase = .padLen) (h56 : q.p = 56) {k : Nat} (hk : k ≤ 7) :
    Sequencer.steps k q
      = { q with
          workBuf := (List.range k).foldl
            (fun buf k => put buf (56 + k) (be64Byte (lengthField q.workCount) k)) q.workBuf
          p := 56 + k } := by
  induction k with
  | zero =>
    simp only [steps_zero, List.range_zero, List.foldl_nil, Nat.add_zero, ← h56]
  | succ k ih =>
    have hlt : 56 + k + 1 < 64 := by omega
    have hsub : 56 + k - 56 = k := by omega
    rw [steps_succ_last, ih (by omega)]
    simp [Sequencer.step, hp, Sequencer.padByte, hlt, List.range_succ]
    omega

/-- PAD_LEN run to its end (R147, R149). -/
theorem steps_padLen (q : Sequencer) (hp : q.phase = .padLen) (h56 : q.p = 56) :
    Sequencer.steps 8 q
      = { q with workBuf := putLength q.workBuf q.workCount, p := 64, phase := .compressing .pad2 .load } := by
  rw [show (8 : Nat) = 7 + 1 from rfl, steps_succ_last, steps_padLen_prefix q hp h56 (by omega), putLength,
    show List.range 8 = List.range 7 ++ [7] from rfl, List.foldl_append, List.foldl_cons, List.foldl_nil]
  simp only [Sequencer.step, hp, Sequencer.padByte]
  rfl

/-- The last block of the padding from the cursor `p`: zeros up to 55, then the length field (R147). -/
def lastBlock (buf : Vector Byte 64) (p : Nat) (len : Count) : Vector Byte 64 :=
  putLength (zeroFill buf p 56) len

/-- The padding from PAD_ZERO, or from PAD_LEN when there is no zero to write, run to DONE (R147). -/
theorem steps_lastBlock (q : Sequencer) (hp : q.phase = if q.p < 56 then .padZero else .padLen) (h56 : q.p ≤ 56) :
    (Sequencer.steps ((56 - q.p) + 8 + 66) q).message
        = ⟨compress q.workH (lastBlock q.workBuf q.p q.workCount), q.workCount, lastBlock q.workBuf q.p q.workCount⟩
      ∧ (Sequencer.steps ((56 - q.p) + 8 + 66) q).phase = .done := by
  have hlen : Sequencer.steps (56 - q.p) q
      = { q with workBuf := zeroFill q.workBuf q.p 56, p := 56, phase := .padLen } := by
    by_cases hlt : q.p < 56
    · rw [if_pos hlt] at hp
      rw [show 56 - q.p = (55 - q.p) + 1 by omega]
      exact steps_padZero (55 - q.p) q hp (by omega)
    · have heq : q.p = 56 := by omega
      rw [if_neg hlt] at hp
      rw [heq, Nat.sub_self, steps_zero, zeroFill_done _ (Nat.le_refl 56), ← heq, ← hp]
  have hload : (Sequencer.steps 8 (Sequencer.steps (56 - q.p) q)).phase = .compressing .pad2 .load := by
    rw [hlen, steps_padLen _ rfl rfl]
  rw [steps_add, steps_add, steps_compress hload, hlen, steps_padLen _ rfl rfl]
  simp [Sequencer.message, lastBlock]

theorem pad_one_block (m : Message) (h : fill m.count ≤ 55) :
    pad m = ⟨compress m.h (lastBlock (put m.buf (fill m.count) 0x80#8) (fill m.count + 1) m.count), m.count,
      lastBlock (put m.buf (fill m.count) 0x80#8) (fill m.count + 1) m.count⟩ := by
  have : ¬ fill m.count + 1 > 56 := by omega
  simp [pad, this, lastBlock]

theorem pad_two_blocks (m : Message) (h : 56 ≤ fill m.count) :
    pad m = ⟨compress (compress m.h (zeroFill (put m.buf (fill m.count) 0x80#8) (fill m.count + 1) 64))
        (lastBlock (zeroFill (put m.buf (fill m.count) 0x80#8) (fill m.count + 1) 64) 0 m.count), m.count,
      lastBlock (zeroFill (put m.buf (fill m.count) 0x80#8) (fill m.count + 1) 64) 0 m.count⟩ := by
  have : fill m.count + 1 > 56 := by omega
  simp [pad, this, lastBlock]

/-- The sequencer when PAD_COMPRESS_1 begins: zeros from the cursor to the end of the block (R147). -/
def Sequencer.afterTail (q : Sequencer) : Sequencer :=
  { q with workBuf := zeroFill q.workBuf q.p 64, p := 64, phase := .compressing .pad1 .load }

/-- PAD_ZERO_TAIL, or nothing when PAD_80 has filled the block, run to PAD_COMPRESS_1 (R147). -/
theorem steps_tail (q : Sequencer)
    (hp : q.phase = if q.p < 64 then .padZeroTail else .compressing .pad1 .load) (h64 : q.p ≤ 64) :
    Sequencer.steps (64 - q.p) q = q.afterTail := by
  by_cases hlt : q.p < 64
  · rw [if_pos hlt] at hp
    rw [show 64 - q.p = (63 - q.p) + 1 by omega]
    exact steps_padZeroTail (63 - q.p) q hp (by omega)
  · have heq : q.p = 64 := by omega
    rw [if_neg hlt] at hp
    rw [heq, Nat.sub_self, steps_zero, Sequencer.afterTail, heq, zeroFill_done _ (Nat.le_refl 64), ← heq, ← hp]

/-- The padding run to DONE: the effect `pad` (R147). -/
theorem run_pad {q : Sequencer} (hp : q.phase = .pad80) (hc : q.p = fill q.workCount) :
    q.run.message = pad q.message ∧ q.run.phase = .done := by
  have hlt := fill_lt q.workCount
  have hstep : q.step = q.padByte 0x80#8 afterPad80 := by simp [Sequencer.step, hp]
  have hleft : q.stepsLeft = 1 + padSteps (q.p + 1) := by simp [Sequencer.stepsLeft, hp]
  rw [Sequencer.run, hleft, steps_add, steps_succ, steps_zero, hstep]
  by_cases hone : fill q.workCount ≤ 55
  · have hsteps : padSteps (q.p + 1) = (56 - (q.p + 1)) + 8 + 66 := by
      rw [padSteps, if_neg (by omega)]
    have hphase : (q.padByte 0x80#8 afterPad80).phase
        = if (q.padByte 0x80#8 afterPad80).p < 56 then .padZero else .padLen := by
      simp only [Sequencer.padByte, afterPad80]
      rw [if_neg (by omega)]
      rfl
    have := steps_lastBlock (q.padByte 0x80#8 afterPad80) hphase (by simp only [Sequencer.padByte]; omega)
    rw [hsteps, pad_one_block _ hone]
    simpa [Sequencer.padByte, Sequencer.message, hc] using this
  · have hsteps : padSteps (q.p + 1) = (64 - (q.p + 1)) + 66 + (56 + 8 + 66) := by
      rw [padSteps, if_pos (by omega)]
    have hphase : (q.padByte 0x80#8 afterPad80).phase
        = if (q.padByte 0x80#8 afterPad80).p < 64 then .padZeroTail else .compressing .pad1 .load := by
      simp only [Sequencer.padByte, afterPad80]
      rw [if_pos (by omega)]
      rfl
    have htail : Sequencer.steps (64 - (q.p + 1)) (q.padByte 0x80#8 afterPad80)
        = (q.padByte 0x80#8 afterPad80).afterTail :=
      steps_tail (q.padByte 0x80#8 afterPad80) hphase (by simp only [Sequencer.padByte]; omega)
    have hlast := steps_lastBlock ((q.padByte 0x80#8 afterPad80).afterTail.compressed .pad1) (by simp) (by simp)
    rw [compressed_p_pad1, Nat.sub_zero] at hlast
    rw [hsteps, steps_add (64 - (q.p + 1) + 66), steps_add (64 - (q.p + 1)), htail, steps_compress rfl, pad_two_blocks _ (by simp only [Sequencer.message]; omega)]
    simpa [Sequencer.padByte, Sequencer.afterTail, Sequencer.message, hc] using hlast

end Sys2Proof.Machine
end

