-- ==== Sys2Proof/Laws/Message.lean ====
section
/-! SUPPORT. What absorbing and padding do to the message in the engine (spec/41_commands.md R142, R147, R161): buffer
entries one by one, blocks of a list of bytes, and the hash of the bytes absorbed so far. -/
namespace Sys2Proof.Machine

theorem nth_putLength (buf : Vector Byte 64) (len : Count) (j : Nat) :
    nth (putLength buf len) j = if 56 ≤ j ∧ j < 64 then be64Byte (lengthField len) (j - 56) else nth buf j := by
  by_cases h : j < 64
  · simp only [putLength, List.range_succ, List.range_zero, List.nil_append, List.cons_append, List.foldl_cons,
      List.foldl_nil, nth_put]
    interval_cases j <;> simp
  · rw [nth_of_le _ (by omega), nth_of_le _ (by omega), if_neg (by omega)]

theorem nth_zeroFill (buf : Vector Byte 64) (p stop j : Nat) (h : stop ≤ 64) :
    nth (zeroFill buf p stop) j = if p ≤ j ∧ j < stop then 0#8 else nth buf j := by
  have key : ∀ (n : Nat) (buf : Vector Byte 64) (p : Nat), p + n ≤ 64 →
      nth ((List.range' p n).foldl (fun buf j => put buf j 0#8) buf) j
        = if p ≤ j ∧ j < p + n then 0#8 else nth buf j := by
    intro n
    induction n with
    | zero => intro buf p _; simp
    | succ n ih =>
      intro buf p hp
      rw [List.range'_succ, List.foldl_cons, ih _ _ (by omega), nth_put]
      split_ifs <;> first | rfl | omega
  unfold zeroFill
  rcases Nat.le_total p stop with hp | hp
  · rw [key _ _ _ (by omega), Nat.add_sub_cancel' hp]
  · rw [Nat.sub_eq_zero_of_le hp, List.range'_zero, List.foldl_nil, if_neg (by omega)]

theorem nth_blockOf (bytes : List Byte) {j : Nat} (h : j < 64) : nth (blockOf bytes) j = bytes[j]?.getD 0#8 := by
  simp [nth, blockOf, h]

theorem blockOf_append (bytes more : List Byte) (h : 64 ≤ bytes.length) : blockOf (bytes ++ more) = blockOf bytes :=
  vector_ext_nth fun i hi => by
    rw [nth_blockOf _ hi, nth_blockOf _ hi, List.getElem?_append_left (by omega)]

/-- Only the first `k` blocks matter. -/
theorem compressBlocks_append {k : Nat} {h : Vector Word 8} {bytes : List Byte} (more : List Byte)
    (hl : 64 * k ≤ bytes.length) : compressBlocks k h (bytes ++ more) = compressBlocks k h bytes := by
  induction k generalizing h bytes with
  | zero => rfl
  | succ k ih =>
    simp only [compressBlocks]
    rw [blockOf_append _ _ (by omega), List.drop_append_of_le_length (by omega), ih (by simp; omega)]

/-- The last block on its own. -/
theorem compressBlocks_succ (k : Nat) (h : Vector Word 8) (bytes : List Byte) :
    compressBlocks (k + 1) h bytes = compress (compressBlocks k h bytes) (blockOf (bytes.drop (64 * k))) := by
  induction k generalizing h bytes with
  | zero => rfl
  | succ k ih =>
    rw [compressBlocks, ih, List.drop_drop, compressBlocks, show 64 + 64 * k = 64 * (k + 1) by omega]

theorem fill_ofNat (n : Nat) : fill (BitVec.ofNat 64 n) = n % 64 := by simp [fill]

theorem be64_getElem? (v : Count) {k : Nat} (h : k < 8) : (be64 v)[k]? = some (be64Byte v k) := by simp [be64, h]

/-- The message in the engine is `bytes`: count is their number, H the hash of the whole blocks, and the buffer holds the
bytes beyond them (10_state.md R36). -/
def Message.hashes (m : Message) (bytes : List Byte) : Prop :=
  m.count = BitVec.ofNat 64 bytes.length
  ∧ m.h = compressBlocks (bytes.length / 64) initialHash bytes
  ∧ ∀ j < fill m.count, bytes[bytes.length - fill m.count + j]? = some (nth m.buf j)

/-- After INIT the message is empty (R156). -/
theorem hashes_nil (buf : Vector Byte 64) : (Message.mk initialHash 0#64 buf).hashes [] :=
  ⟨rfl, rfl, fun j hj => absurd hj (Nat.not_lt_zero j)⟩

/-- `absorb(b)` appends `b` to the message (R142). -/
theorem hashes_absorb {m : Message} {bytes : List Byte} (h : m.hashes bytes) (b : Byte) :
    (absorb m b).hashes (bytes ++ [b]) := by
  obtain ⟨hc, hh, hb⟩ := h
  have hfill : fill m.count = bytes.length % 64 := by rw [hc, fill_ofNat]
  have hsucc := fill_succ m.count
  have hlt := fill_lt m.count
  have live : ∀ j ≤ fill m.count,
      (bytes ++ [b])[bytes.length - fill m.count + j]? = some (nth (put m.buf (fill m.count) b) j) := by
    intro j hj
    rw [nth_put]
    by_cases hjf : fill m.count = j
    · rw [if_pos ⟨hjf, hlt⟩, List.getElem?_append_right (by omega),
        show bytes.length - fill m.count + j - bytes.length = 0 by omega]
      rfl
    · rw [if_neg (by omega), List.getElem?_append_left (by omega)]
      exact hb j (by omega)
  refine ⟨?_, ?_, fun j hj => ?_⟩
  · simp only [absorb, hc, List.length_append, List.length_singleton]
    apply BitVec.eq_of_toNat_eq
    simp
  · simp only [absorb, List.length_append, List.length_singleton]
    by_cases hw : fill (m.count + 1#64) = 0
    · rw [if_pos hw, hh, show (bytes.length + 1) / 64 = bytes.length / 64 + 1 by omega, compressBlocks_succ,
        compressBlocks_append _ (by omega)]
      refine congrArg _ (vector_ext_nth fun i hi => ?_)
      rw [nth_blockOf _ hi, List.getElem?_drop,
        show 64 * (bytes.length / 64) + i = bytes.length - fill m.count + i by omega, live i (by omega)]
      rfl
    · rw [if_neg hw, hh, show (bytes.length + 1) / 64 = bytes.length / 64 by omega, compressBlocks_append _ (by omega)]
  · have hj' : j < fill (m.count + 1#64) := hj
    simp only [absorb, List.length_append, List.length_singleton]
    rw [show bytes.length + 1 - fill (m.count + 1#64) + j = bytes.length - fill m.count + j by omega]
    exact live j (by omega)

/-- The `absorb` calls of a sequence of bytes append it to the message (R145). -/
theorem hashes_absorbAll {m : Message} {bytes : List Byte} (h : m.hashes bytes) (more : List Byte) :
    (absorbAll m more).hashes (bytes ++ more) := by
  induction more generalizing m bytes with
  | nil => simpa [absorbAll] using h
  | cons b more ih => simpa [absorbAll] using ih (hashes_absorb h b)

/-- The padded message byte by byte (R147). -/
theorem padded_getElem? (bytes : List Byte) (i : Nat) :
    (padded bytes)[i]? =
      if i < bytes.length then bytes[i]?
      else if i = bytes.length then some 0x80#8
      else if i < bytes.length + 1 + (119 - bytes.length % 64) % 64 then some 0#8
      else (be64 (BitVec.ofNat 64 (8 * bytes.length)))[i - (bytes.length + 1 + (119 - bytes.length % 64) % 64)]? := by
  unfold padded
  rw [List.append_assoc, List.append_assoc]
  split_ifs with h1 h2 h3
  · rw [List.getElem?_append_left h1]
  · subst h2
    rw [List.getElem?_append_right (by omega)]
    simp
  · rw [List.getElem?_append_right (by omega), List.getElem?_append_right (by simp; omega),
      List.getElem?_append_left (by simp; omega), List.getElem?_replicate, if_pos (by simp; omega)]
  · rw [List.getElem?_append_right (by omega), List.getElem?_append_right (by simp; omega),
      List.getElem?_append_right (by simp; omega)]
    simp only [List.length_singleton, List.length_replicate]
    congr 1
    omega

theorem padded_length (bytes : List Byte) :
    (padded bytes).length = bytes.length + 1 + (119 - bytes.length % 64) % 64 + 8 := by
  simp [padded, be64]
  omega

/-- `pad(L)` on a message gives its digest (R147, R161); from 2^61 bytes on, that of the wrapped length field (R149). -/
theorem pad_h_of_hashes {m : Message} {bytes : List Byte} (h : m.hashes bytes) : (pad m).h = sha256 bytes := by
  obtain ⟨hc, hh, hb⟩ := h
  have hfill : fill m.count = bytes.length % 64 := by rw [hc, fill_ofNat]
  have hlt := fill_lt m.count
  have hfield : BitVec.ofNat 64 (8 * bytes.length) = lengthField m.count := by
    rw [hc]
    unfold lengthField
    apply BitVec.eq_of_toNat_eq
    simp [BitVec.toNat_mul]
  have hlen := padded_length bytes
  have hblocks : compressBlocks (bytes.length / 64) initialHash (padded bytes) = m.h := by
    unfold padded
    rw [List.append_assoc, List.append_assoc, compressBlocks_append _ (by omega), hh]
  unfold sha256
  by_cases h55 : fill m.count ≤ 55
  · rw [show (padded bytes).length / 64 = bytes.length / 64 + 1 by omega, compressBlocks_succ, hblocks,
      pad_one_block _ h55]
    refine congrArg (compress m.h) (vector_ext_nth fun i hi => ?_)
    rw [nth_blockOf _ hi, List.getElem?_drop, padded_getElem?, hfield]
    simp only [lastBlock, nth_putLength]
    rw [nth_zeroFill _ _ _ _ (by omega), nth_put]
    rcases Nat.lt_trichotomy i (fill m.count) with hi' | hi' | hi'
    · rw [if_neg (by omega), if_neg (by omega), if_neg (by omega), if_pos (by omega),
        show 64 * (bytes.length / 64) + i = bytes.length - fill m.count + i by omega, hb i hi']
      rfl
    · rw [if_neg (by omega), if_neg (by omega), if_pos (by omega), if_neg (by omega), if_pos (by omega)]
      rfl
    · by_cases h56 : i < 56
      · rw [if_neg (by omega), if_pos (by omega), if_neg (by omega), if_neg (by omega), if_pos (by omega)]
        rfl
      · rw [if_pos (by omega), if_neg (by omega), if_neg (by omega), if_neg (by omega),
          show 64 * (bytes.length / 64) + i - (bytes.length + 1 + (119 - bytes.length % 64) % 64) = i - 56 by omega,
          be64_getElem? _ (by omega)]
        rfl
  · rw [show (padded bytes).length / 64 = bytes.length / 64 + 1 + 1 by omega, compressBlocks_succ,
      compressBlocks_succ, hblocks, pad_two_blocks _ (by omega)]
    refine congrArg₂ compress (congrArg (compress m.h) (vector_ext_nth fun i hi => ?_)) (vector_ext_nth fun i hi => ?_)
    · rw [nth_blockOf _ hi, List.getElem?_drop, padded_getElem?, nth_zeroFill _ _ _ _ (by omega), nth_put]
      rcases Nat.lt_trichotomy i (fill m.count) with hi' | hi' | hi'
      · rw [if_neg (by omega), if_neg (by omega), if_pos (by omega),
          show 64 * (bytes.length / 64) + i = bytes.length - fill m.count + i by omega, hb i hi']
        rfl
      · rw [if_neg (by omega), if_pos (by omega), if_neg (by omega), if_pos (by omega)]
        rfl
      · rw [if_pos (by omega), if_neg (by omega), if_neg (by omega), if_pos (by omega)]
        rfl
    · rw [nth_blockOf _ hi, List.getElem?_drop, padded_getElem?, hfield]
      simp only [lastBlock, nth_putLength]
      rw [nth_zeroFill _ _ _ _ (by omega)]
      by_cases h56 : i < 56
      · rw [if_neg (by omega), if_pos (by omega), if_neg (by omega), if_neg (by omega), if_pos (by omega)]
        rfl
      · rw [if_pos (by omega), if_neg (by omega), if_neg (by omega), if_neg (by omega),
          show 64 * (bytes.length / 64 + 1) + i - (bytes.length + 1 + (119 - bytes.length % 64) % 64) = i - 56 by omega,
          be64_getElem? _ (by omega)]
        rfl

/-- In ACTIVE the message in the engine is the one its state holds. -/
theorem message_hashes {s : State} {bytes : List Byte} (h : s.holdsMessage bytes) (hl : s.life = .active) :
    s.message.hashes bytes := ⟨h.1, h.2.2.1 hl⟩

/-- The message a state holds depends on four of its fields only. -/
theorem holdsMessage_of_eq {s t : State} {bytes : List Byte} (h : s.holdsMessage bytes) (hh : t.h = s.h)
    (hc : t.count = s.count) (hb : t.buf = s.buf) (hl : t.life = s.life) : t.holdsMessage bytes := by
  unfold State.holdsMessage
  rw [hh, hc, hb, hl]
  exact h

end Sys2Proof.Machine
end

