-- ==== Sys2Proof/Laws/PerInstr.lean ====
section
/-! SUPPORT. What holds of every command as syntax, one lemma per constructor: the word of a well-formed command matches
the command's row of spec/30_encoding.md R84. -/
namespace Sys2Proof.Laws

/-- The command's word matches its own row (R84, R89). -/
def RowMatches.Statement (i : Instr) : Prop := i.wf = true → i.row.selects (encode i) = true

theorem RowMatches.nop : RowMatches.Statement .nop := fun _ => by decide

theorem RowMatches.init : RowMatches.Statement .init := fun _ => by decide

theorem RowMatches.absorbB (imm8 : Byte) : RowMatches.Statement (.absorbB imm8) := fun _ => by
  revert imm8
  decide

theorem RowMatches.absorbW (n : Nat) : RowMatches.Statement (.absorbW n) := fun h => by
  have hn : 1 ≤ n ∧ n ≤ 4 := by simpa [Instr.wf] using h
  obtain rfl | rfl | rfl | rfl : n = 1 ∨ n = 2 ∨ n = 3 ∨ n = 4 := by omega
  all_goals decide

theorem RowMatches.finalize : RowMatches.Statement .finalize := fun _ => by decide

end Sys2Proof.Laws
end

