-- ==== Sys2Proof/Laws/Progress.lean ====
section
/-! SUPPORT. The sequencer makes progress: where each internal step goes, that it stays on the way of its command, and that
one step fewer is left after it. -/
namespace Sys2Proof.Machine

theorem afterPad80_cases {p : Nat} (h : p ≤ 64) :
    (p < 56 ∧ afterPad80 p = .padZero) ∨ (p = 56 ∧ afterPad80 p = .padLen)
    ∨ (56 < p ∧ p < 64 ∧ afterPad80 p = .padZeroTail) ∨ (p = 64 ∧ afterPad80 p = .compressing .pad1 .load) := by
  unfold afterPad80
  rcases Nat.lt_or_ge p 56 with h1 | h1
  · left
    rw [if_neg (by omega), if_pos h1]
    exact ⟨h1, rfl⟩
  · rcases Nat.eq_or_lt_of_le h1 with rfl | h2
    · right; left
      simp
    · rcases Nat.lt_or_ge p 64 with h3 | h3
      · right; right; left
        rw [if_pos h2, if_pos h3]
        exact ⟨h2, h3, rfl⟩
      · right; right; right
        rw [if_pos h2, if_neg (by omega)]
        exact ⟨by omega, rfl⟩

/-- An internal step stays on the way of an absorb, with no more bytes to come than before. -/
theorem inAbsorb_step {q : Sequencer} (h : q.inAbsorb = true) :
    q.step.inAbsorb = true ∧ q.step.rest.length ≤ q.rest.length := by
  unfold Sequencer.inAbsorb at h
  split at h
  · rename_i hp
    cases hr : q.rest with
    | nil => simp [hr] at h
    | cons b rest =>
      rw [step_absorbing hp hr]
      by_cases hw : fill (q.workCount + 1#64) = 0
      · simp [Sequencer.inAbsorb, Sequencer.absorbByte, hw]
      · cases rest <;> simp [Sequencer.inAbsorb, Sequencer.absorbByte, hw, absorbPhase]
  · rename_i stage hp
    cases stage with
    | load => rw [step_load hp]; simpa [Sequencer.inAbsorb, Sequencer.loadStep] using h
    | round =>
      rw [step_round hp]
      by_cases ht : q.t < 63 <;> simpa [Sequencer.inAbsorb, Sequencer.roundStep, ht] using h
    | add =>
      rw [step_add hp]
      by_cases hr : q.rest = [] <;> simp [Sequencer.inAbsorb, Sequencer.addStep, absorbPhase, hr]
  · rename_i hp
    rw [step_done hp]
    simp [Sequencer.inAbsorb, hp, h]
  · cases h

/-- An internal step stays on the way of FINALIZE and leaves the count it works with. -/
theorem inPadding_step {q : Sequencer} (h : q.inPadding = true) :
    q.step.inPadding = true ∧ q.step.workCount = q.workCount := by
  unfold Sequencer.inPadding at h
  split at h
  · rename_i hp
    have hlt := fill_lt q.workCount
    have hfill : q.p = fill q.workCount := by simpa using h
    have hle : q.p + 1 ≤ 64 := by omega
    have hs : q.step = q.padByte 0x80#8 afterPad80 := by simp [Sequencer.step, hp]
    rw [hs]
    rcases afterPad80_cases hle with ⟨h1, h2⟩ | ⟨h1, h2⟩ | ⟨h0, h1, h2⟩ | ⟨h1, h2⟩ <;>
      simp [Sequencer.inPadding, Sequencer.padByte, h2] <;> omega
  · rename_i hp
    simp only [Bool.and_eq_true, decide_eq_true_eq] at h
    by_cases h1 : q.p + 1 < 64 <;> simp [Sequencer.step, hp, Sequencer.inPadding, Sequencer.padByte, h1]
    omega
  · rename_i stage hp
    cases stage with
    | load => rw [step_load hp]; simp [Sequencer.inPadding, Sequencer.loadStep]
    | round => rw [step_round hp]; by_cases ht : q.t < 63 <;> simp [Sequencer.inPadding, Sequencer.roundStep, ht]
    | add => rw [step_add hp]; simp [Sequencer.inPadding, Sequencer.addStep]
  · rename_i hp
    have hlt : q.p < 56 := by simpa using h
    by_cases h1 : q.p + 1 < 56 <;> simp [Sequencer.step, hp, Sequencer.inPadding, Sequencer.padByte, h1]
    omega
  · rename_i hp
    simp only [Bool.and_eq_true, decide_eq_true_eq] at h
    by_cases h1 : q.p + 1 < 64 <;> simp [Sequencer.step, hp, Sequencer.inPadding, Sequencer.padByte, h1]
    omega
  · rename_i stage hp
    cases stage with
    | load => rw [step_load hp]; simp [Sequencer.inPadding, Sequencer.loadStep]
    | round => rw [step_round hp]; by_cases ht : q.t < 63 <;> simp [Sequencer.inPadding, Sequencer.roundStep, ht]
    | add => rw [step_add hp]; simp [Sequencer.inPadding, Sequencer.addStep]
  · rename_i hp
    rw [step_done hp]
    simp [Sequencer.inPadding, hp]
  · cases h

/-- An internal step stays on the way of its command (R32). -/
theorem fits_step {q : Sequencer} {i : Instr} {count : Count} (h : q.fits i count = true) :
    q.step.fits i count = true := by
  cases i with
  | nop => exact h
  | init =>
    have hp : q.phase = .done := by simpa [Sequencer.fits] using h
    rw [step_done hp]
    exact h
  | absorbB b =>
    simp only [Sequencer.fits, Bool.and_eq_true, decide_eq_true_eq] at h ⊢
    exact ⟨(inAbsorb_step h.1).1, Nat.le_trans (inAbsorb_step h.1).2 h.2⟩
  | absorbW n =>
    simp only [Sequencer.fits, Bool.and_eq_true, decide_eq_true_eq] at h ⊢
    exact ⟨(inAbsorb_step h.1).1, Nat.le_trans (inAbsorb_step h.1).2 h.2⟩
  | finalize =>
    simp only [Sequencer.fits, Bool.and_eq_true, beq_iff_eq] at h ⊢
    exact ⟨(inPadding_step h.1).1, (inPadding_step h.1).2.trans h.2⟩

/-- The round index and the cursor stay in their ranges, on the way of a command. -/
theorem cursor_step {q : Sequencer} {i : Instr} {count : Count} (h : q.fits i count = true)
    (ht : q.t ≤ 63) (hp : q.p ≤ 64) : q.step.t ≤ 63 ∧ q.step.p ≤ 64 := by
  have hpad : q.phase = .pad80 ∨ q.phase = .padZeroTail ∨ q.phase = .padZero ∨ q.phase = .padLen → q.p < 64 := by
    intro hph
    cases i with
    | nop => cases h
    | init => simp only [Sequencer.fits, beq_iff_eq] at h; simp [h] at hph
    | absorbB b => rcases hph with hph | hph | hph | hph <;> simp [Sequencer.fits, Sequencer.inAbsorb, hph] at h
    | absorbW n => rcases hph with hph | hph | hph | hph <;> simp [Sequencer.fits, Sequencer.inAbsorb, hph] at h
    | finalize =>
      have := fill_lt q.workCount
      rcases hph with hph | hph | hph | hph <;> simp [Sequencer.fits, Sequencer.inPadding, hph] at h <;> omega
  unfold Sequencer.step
  split
  · exact ⟨ht, hp⟩
  · exact ⟨ht, hp⟩
  · split
    · exact ⟨ht, hp⟩
    · exact ⟨ht, hp⟩
  · exact ⟨Nat.zero_le _, hp⟩
  · refine ⟨?_, hp⟩
    simp only [Sequencer.roundStep]
    split <;> omega
  · rename_i c _
    cases c
    · exact ⟨ht, hp⟩
    · exact ⟨ht, Nat.zero_le _⟩
    · exact ⟨ht, hp⟩
  · rename_i hph
    exact ⟨ht, hpad (.inl hph)⟩
  · rename_i hph
    exact ⟨ht, hpad (.inr (.inl hph))⟩
  · rename_i hph
    exact ⟨ht, hpad (.inr (.inr (.inl hph)))⟩
  · rename_i hph
    exact ⟨ht, hpad (.inr (.inr (.inr hph)))⟩

/-- One internal step fewer is left after an internal step (R227). -/
theorem stepsLeft_step {q : Sequencer} {i : Instr} {count : Count} (h : q.fits i count = true) (ht : q.t ≤ 63)
    (hd : q.phase ≠ .done) : q.stepsLeft = q.step.stepsLeft + 1 := by
  have compress : ∀ c stage, q.phase = .compressing c stage →
      (c = .absorb → fill q.workCount = 0) → q.stepsLeft = q.step.stepsLeft + 1 := by
    intro c stage hp hc
    cases stage with
    | load =>
      rw [step_load hp]
      cases c <;> simp [Sequencer.stepsLeft, hp, Sequencer.loadStep, compressSteps, Sequencer.stepsAfter] <;> omega
    | round =>
      rw [step_round hp]
      by_cases h63 : q.t < 63
      · cases c <;>
          simp [Sequencer.stepsLeft, hp, Sequencer.roundStep, compressSteps, Sequencer.stepsAfter, h63] <;> omega
      · have : q.t = 63 := by omega
        cases c <;>
          simp [Sequencer.stepsLeft, hp, Sequencer.roundStep, compressSteps, Sequencer.stepsAfter, this] <;> omega
    | add =>
      rw [step_add hp]
      cases c with
      | absorb =>
        by_cases hr : q.rest = []
        · have := hc rfl
          simp [Sequencer.stepsLeft, hp, Sequencer.addStep, compressSteps, Sequencer.stepsAfter, absorbPhase, hr,
            absorbSteps, this]
        · simp [Sequencer.stepsLeft, hp, Sequencer.addStep, compressSteps, Sequencer.stepsAfter, absorbPhase, hr]
          omega
      | pad1 => simp [Sequencer.stepsLeft, hp, Sequencer.addStep, compressSteps, Sequencer.stepsAfter]
      | pad2 => simp [Sequencer.stepsLeft, hp, Sequencer.addStep, compressSteps, Sequencer.stepsAfter]
  have absorb : q.inAbsorb = true → q.stepsLeft = q.step.stepsLeft + 1 := by
    intro ha
    unfold Sequencer.inAbsorb at ha
    split at ha
    · rename_i hp
      cases hr : q.rest with
      | nil => simp [hr] at ha
      | cons b rest =>
        have hfill := fill_succ q.workCount
        have hlt := fill_lt q.workCount
        rw [step_absorbing hp hr]
        by_cases hw : fill (q.workCount + 1#64) = 0
        · have h63 : fill q.workCount = 63 := by omega
          simp [Sequencer.stepsLeft, hp, hr, Sequencer.absorbByte, hw, compressSteps, Sequencer.stepsAfter,
            absorbSteps, h63]
          omega
        · have hf : fill (q.workCount + 1#64) = fill q.workCount + 1 := by omega
          cases rest with
          | nil =>
            simp [Sequencer.stepsLeft, hp, hr, Sequencer.absorbByte, hw, absorbPhase, absorbSteps]
            omega
          | cons b' rest =>
            simp [Sequencer.stepsLeft, hp, hr, Sequencer.absorbByte, absorbPhase, absorbSteps, hf]
            omega
    · rename_i stage hp
      exact compress .absorb stage hp (fun _ => by simpa using ha)
    · rename_i hp
      exact absurd hp hd
    · cases ha
  cases i with
  | nop => cases h
  | init => exact absurd (by simpa [Sequencer.fits] using h) hd
  | absorbB b =>
    simp only [Sequencer.fits, Bool.and_eq_true] at h
    exact absorb h.1
  | absorbW n =>
    simp only [Sequencer.fits, Bool.and_eq_true] at h
    exact absorb h.1
  | finalize =>
    simp only [Sequencer.fits, Bool.and_eq_true] at h
    have hq := h.1
    unfold Sequencer.inPadding at hq
    split at hq
    · rename_i hp
      have hlt := fill_lt q.workCount
      have hfill : q.p = fill q.workCount := by simpa using hq
      have hs : q.step = q.padByte 0x80#8 afterPad80 := by simp [Sequencer.step, hp]
      rw [hs]
      rcases afterPad80_cases (show q.p + 1 ≤ 64 by omega) with ⟨h1, h2⟩ | ⟨h1, h2⟩ | ⟨h0, h1, h2⟩ | ⟨h1, h2⟩ <;>
        simp only [Sequencer.stepsLeft, hp, Sequencer.padByte, h2, padSteps, compressSteps, Sequencer.stepsAfter] <;>
        split <;> omega
    · rename_i hp
      simp only [Bool.and_eq_true, decide_eq_true_eq] at hq
      by_cases h1 : q.p + 1 < 64 <;>
        simp [Sequencer.stepsLeft, hp, Sequencer.step, Sequencer.padByte, h1, compressSteps,
          Sequencer.stepsAfter] <;> omega
    · rename_i stage hp
      exact compress .pad1 stage hp (fun h => by cases h)
    · rename_i hp
      have hlt : q.p < 56 := by simpa using hq
      by_cases h1 : q.p + 1 < 56 <;>
        simp [Sequencer.stepsLeft, hp, Sequencer.step, Sequencer.padByte, h1] <;> omega
    · rename_i hp
      simp only [Bool.and_eq_true, decide_eq_true_eq] at hq
      by_cases h1 : q.p + 1 < 64 <;>
        simp [Sequencer.stepsLeft, hp, Sequencer.step, Sequencer.padByte, h1, compressSteps,
          Sequencer.stepsAfter] <;> omega
    · rename_i stage hp
      exact compress .pad2 stage hp (fun h => by cases h)
    · rename_i hp
      exact absurd hp hd
    · cases hq

/-- Running on from an internal step comes to the same DONE (R31, R141). -/
theorem run_step {q : Sequencer} {i : Instr} {count : Count} (h : q.fits i count = true) (ht : q.t ≤ 63) :
    q.step.run = q.run := by
  by_cases hd : q.phase = .done
  · rw [step_done hd]
  · unfold Sequencer.run
    rw [stepsLeft_step h ht hd, steps_succ]

end Sys2Proof.Machine
end

