-- ==== Sys2Proof/Laws/State.lean ====
section
/-! SUPPORT. One lemma per field per update of the state: what an update sets, and that it leaves the other fields. -/
namespace Sys2Proof.Machine

@[simp] theorem offer_h (s : State) (k : Nat) (w : Word) : (s.offer k w).h = s.h := rfl
@[simp] theorem offer_count (s : State) (k : Nat) (w : Word) : (s.offer k w).count = s.count := rfl
@[simp] theorem offer_life (s : State) (k : Nat) (w : Word) : (s.offer k w).life = s.life := rfl
@[simp] theorem offer_dataIn (s : State) (k : Nat) (w : Word) : (s.offer k w).dataIn = s.dataIn := rfl
@[simp] theorem offer_err (s : State) (k : Nat) (w : Word) : (s.offer k w).err = s.err := rfl
@[simp] theorem offer_cause (s : State) (k : Nat) (w : Word) : (s.offer k w).cause = s.cause := rfl
@[simp] theorem offer_errCmd (s : State) (k : Nat) (w : Word) : (s.offer k w).errCmd = s.errCmd := rfl
@[simp] theorem offer_pending (s : State) (k : Nat) (w : Word) : (s.offer k w).pending = s.pending := rfl
@[simp] theorem offer_seq (s : State) (k : Nat) (w : Word) : (s.offer k w).seq = s.seq := rfl
@[simp] theorem offer_held (s : State) (k : Nat) (w : Word) :
    (s.offer k w).held = s.held ++ [⟨k, w⟩] := rfl
@[simp] theorem offer_masters (s : State) (k : Nat) (w : Word) : (s.offer k w).masters = s.masters := rfl
@[simp] theorem offer_wait (s : State) (k : Nat) (w : Word) : (s.offer k w).wait = s.wait := rfl
@[simp] theorem offer_turn (s : State) (k : Nat) (w : Word) : (s.offer k w).turn = s.turn := rfl
@[simp] theorem offer_buf (s : State) (k : Nat) (w : Word) : (s.offer k w).buf = s.buf := rfl
@[simp] theorem offer_inReset (s : State) (k : Nat) (w : Word) : (s.offer k w).inReset = s.inReset := rfl

@[simp] theorem usageError_h (s : State) (c : Cause) (w : Word) : (s.usageError c w).h = s.h := rfl
@[simp] theorem usageError_count (s : State) (c : Cause) (w : Word) : (s.usageError c w).count = s.count := rfl
@[simp] theorem usageError_life (s : State) (c : Cause) (w : Word) : (s.usageError c w).life = s.life := rfl
@[simp] theorem usageError_dataIn (s : State) (c : Cause) (w : Word) : (s.usageError c w).dataIn = s.dataIn := rfl
@[simp] theorem usageError_err (s : State) (c : Cause) (w : Word) :
    (s.usageError c w).err = true := rfl
@[simp] theorem usageError_pending (s : State) (c : Cause) (w : Word) : (s.usageError c w).pending = s.pending := rfl
@[simp] theorem usageError_seq (s : State) (c : Cause) (w : Word) : (s.usageError c w).seq = s.seq := rfl
@[simp] theorem usageError_held (s : State) (c : Cause) (w : Word) : (s.usageError c w).held = s.held := rfl
@[simp] theorem usageError_masters (s : State) (c : Cause) (w : Word) : (s.usageError c w).masters = s.masters := rfl
@[simp] theorem usageError_wait (s : State) (c : Cause) (w : Word) : (s.usageError c w).wait = s.wait := rfl
@[simp] theorem usageError_turn (s : State) (c : Cause) (w : Word) : (s.usageError c w).turn = s.turn := rfl
@[simp] theorem usageError_buf (s : State) (c : Cause) (w : Word) : (s.usageError c w).buf = s.buf := rfl
@[simp] theorem usageError_inReset (s : State) (c : Cause) (w : Word) : (s.usageError c w).inReset = s.inReset := rfl

@[simp] theorem accept_h (s : State) (i : Instr) : (s.accept i).h = s.h := rfl
@[simp] theorem accept_count (s : State) (i : Instr) : (s.accept i).count = s.count := rfl
@[simp] theorem accept_life (s : State) (i : Instr) : (s.accept i).life = s.life := rfl
@[simp] theorem accept_dataIn (s : State) (i : Instr) : (s.accept i).dataIn = s.dataIn := rfl
@[simp] theorem accept_err (s : State) (i : Instr) : (s.accept i).err = s.err := rfl
@[simp] theorem accept_cause (s : State) (i : Instr) : (s.accept i).cause = s.cause := rfl
@[simp] theorem accept_errCmd (s : State) (i : Instr) : (s.accept i).errCmd = s.errCmd := rfl
@[simp] theorem accept_pending (s : State) (i : Instr) :
    (s.accept i).pending = some ⟨i, capture i s.dataIn⟩ := rfl
@[simp] theorem accept_seq (s : State) (i : Instr) :
    (s.accept i).seq = s.seq.start i (capture i s.dataIn) s.h s.count s.buf := rfl
@[simp] theorem accept_held (s : State) (i : Instr) : (s.accept i).held = s.held := rfl
@[simp] theorem accept_masters (s : State) (i : Instr) : (s.accept i).masters = s.masters := rfl
@[simp] theorem accept_wait (s : State) (i : Instr) : (s.accept i).wait = s.wait := rfl
@[simp] theorem accept_turn (s : State) (i : Instr) : (s.accept i).turn = s.turn := rfl
@[simp] theorem accept_buf (s : State) (i : Instr) : (s.accept i).buf = s.buf := rfl
@[simp] theorem accept_inReset (s : State) (i : Instr) : (s.accept i).inReset = s.inReset := rfl

@[simp] theorem retire_h (s : State) : s.retire.h = s.h := rfl
@[simp] theorem retire_count (s : State) : s.retire.count = s.count := rfl
@[simp] theorem retire_life (s : State) : s.retire.life = s.life := rfl
@[simp] theorem retire_dataIn (s : State) : s.retire.dataIn = s.dataIn := rfl
@[simp] theorem retire_err (s : State) : s.retire.err = s.err := rfl
@[simp] theorem retire_cause (s : State) : s.retire.cause = s.cause := rfl
@[simp] theorem retire_errCmd (s : State) : s.retire.errCmd = s.errCmd := rfl
@[simp] theorem retire_pending (s : State) :
    s.retire.pending = none := rfl
@[simp] theorem retire_held (s : State) : s.retire.held = s.held := rfl
@[simp] theorem retire_masters (s : State) : s.retire.masters = s.masters := rfl
@[simp] theorem retire_wait (s : State) : s.retire.wait = s.wait := rfl
@[simp] theorem retire_turn (s : State) : s.retire.turn = s.turn := rfl
@[simp] theorem retire_buf (s : State) : s.retire.buf = s.buf := rfl
@[simp] theorem retire_inReset (s : State) : s.retire.inReset = s.inReset := rfl

@[simp] theorem runSequencer_h (s : State) : s.runSequencer.h = s.h := rfl
@[simp] theorem runSequencer_count (s : State) : s.runSequencer.count = s.count := rfl
@[simp] theorem runSequencer_life (s : State) : s.runSequencer.life = s.life := rfl
@[simp] theorem runSequencer_dataIn (s : State) : s.runSequencer.dataIn = s.dataIn := rfl
@[simp] theorem runSequencer_err (s : State) : s.runSequencer.err = s.err := rfl
@[simp] theorem runSequencer_cause (s : State) : s.runSequencer.cause = s.cause := rfl
@[simp] theorem runSequencer_errCmd (s : State) : s.runSequencer.errCmd = s.errCmd := rfl
@[simp] theorem runSequencer_pending (s : State) : s.runSequencer.pending = s.pending := rfl
@[simp] theorem runSequencer_seq (s : State) :
    s.runSequencer.seq = s.seq.run := rfl
@[simp] theorem runSequencer_held (s : State) : s.runSequencer.held = s.held := rfl
@[simp] theorem runSequencer_masters (s : State) : s.runSequencer.masters = s.masters := rfl
@[simp] theorem runSequencer_wait (s : State) : s.runSequencer.wait = s.wait := rfl
@[simp] theorem runSequencer_turn (s : State) : s.runSequencer.turn = s.turn := rfl
@[simp] theorem runSequencer_buf (s : State) : s.runSequencer.buf = s.buf := rfl
@[simp] theorem runSequencer_inReset (s : State) : s.runSequencer.inReset = s.inReset := rfl

@[simp] theorem drawWait_h (s : State) : s.drawWait.h = s.h := rfl
@[simp] theorem drawWait_count (s : State) : s.drawWait.count = s.count := rfl
@[simp] theorem drawWait_life (s : State) : s.drawWait.life = s.life := rfl
@[simp] theorem drawWait_dataIn (s : State) : s.drawWait.dataIn = s.dataIn := rfl
@[simp] theorem drawWait_err (s : State) : s.drawWait.err = s.err := rfl
@[simp] theorem drawWait_cause (s : State) : s.drawWait.cause = s.cause := rfl
@[simp] theorem drawWait_errCmd (s : State) : s.drawWait.errCmd = s.errCmd := rfl
@[simp] theorem drawWait_pending (s : State) : s.drawWait.pending = s.pending := rfl
@[simp] theorem drawWait_seq (s : State) : s.drawWait.seq = s.seq := rfl
@[simp] theorem drawWait_held (s : State) : s.drawWait.held = s.held := rfl
@[simp] theorem drawWait_masters (s : State) : s.drawWait.masters = s.masters := rfl
@[simp] theorem drawWait_wait (s : State) :
    s.drawWait.wait = Config.hostTurns s.turn := rfl
@[simp] theorem drawWait_turn (s : State) :
    s.drawWait.turn = s.turn + 1 := rfl
@[simp] theorem drawWait_buf (s : State) : s.drawWait.buf = s.buf := rfl
@[simp] theorem drawWait_inReset (s : State) : s.drawWait.inReset = s.inReset := rfl

@[simp] theorem continueMaster_h (s : State) (k : Nat) (m : Master) (rest : List HostOp) : (s.continueMaster k m rest).h = s.h := rfl
@[simp] theorem continueMaster_count (s : State) (k : Nat) (m : Master) (rest : List HostOp) : (s.continueMaster k m rest).count = s.count := rfl
@[simp] theorem continueMaster_life (s : State) (k : Nat) (m : Master) (rest : List HostOp) : (s.continueMaster k m rest).life = s.life := rfl
@[simp] theorem continueMaster_dataIn (s : State) (k : Nat) (m : Master) (rest : List HostOp) : (s.continueMaster k m rest).dataIn = s.dataIn := rfl
@[simp] theorem continueMaster_err (s : State) (k : Nat) (m : Master) (rest : List HostOp) : (s.continueMaster k m rest).err = s.err := rfl
@[simp] theorem continueMaster_cause (s : State) (k : Nat) (m : Master) (rest : List HostOp) : (s.continueMaster k m rest).cause = s.cause := rfl
@[simp] theorem continueMaster_errCmd (s : State) (k : Nat) (m : Master) (rest : List HostOp) : (s.continueMaster k m rest).errCmd = s.errCmd := rfl
@[simp] theorem continueMaster_pending (s : State) (k : Nat) (m : Master) (rest : List HostOp) : (s.continueMaster k m rest).pending = s.pending := rfl
@[simp] theorem continueMaster_seq (s : State) (k : Nat) (m : Master) (rest : List HostOp) : (s.continueMaster k m rest).seq = s.seq := rfl
@[simp] theorem continueMaster_held (s : State) (k : Nat) (m : Master) (rest : List HostOp) : (s.continueMaster k m rest).held = s.held := rfl
@[simp] theorem continueMaster_masters (s : State) (k : Nat) (m : Master) (rest : List HostOp) :
    (s.continueMaster k m rest).masters = s.masters.set k { m with program := rest } := rfl
@[simp] theorem continueMaster_wait (s : State) (k : Nat) (m : Master) (rest : List HostOp) : (s.continueMaster k m rest).wait = s.wait := rfl
@[simp] theorem continueMaster_turn (s : State) (k : Nat) (m : Master) (rest : List HostOp) : (s.continueMaster k m rest).turn = s.turn := rfl
@[simp] theorem continueMaster_buf (s : State) (k : Nat) (m : Master) (rest : List HostOp) : (s.continueMaster k m rest).buf = s.buf := rfl
@[simp] theorem continueMaster_inReset (s : State) (k : Nat) (m : Master) (rest : List HostOp) : (s.continueMaster k m rest).inReset = s.inReset := rfl

@[simp] theorem resetEngine_h (s : State) (level : Bool) : (s.resetEngine level).h = State.reset.h := rfl
@[simp] theorem resetEngine_count (s : State) (level : Bool) : (s.resetEngine level).count = 0#64 := rfl
@[simp] theorem resetEngine_life (s : State) (level : Bool) : (s.resetEngine level).life = .idle := rfl
@[simp] theorem resetEngine_dataIn (s : State) (level : Bool) : (s.resetEngine level).dataIn = 0#32 := rfl
@[simp] theorem resetEngine_err (s : State) (level : Bool) : (s.resetEngine level).err = false := rfl
@[simp] theorem resetEngine_cause (s : State) (level : Bool) : (s.resetEngine level).cause = .none := rfl
@[simp] theorem resetEngine_errCmd (s : State) (level : Bool) : (s.resetEngine level).errCmd = 0#32 := rfl
@[simp] theorem resetEngine_pending (s : State) (level : Bool) : (s.resetEngine level).pending = none := rfl
@[simp] theorem resetEngine_seq (s : State) (level : Bool) : (s.resetEngine level).seq = Sequencer.reset := rfl
@[simp] theorem resetEngine_held (s : State) (level : Bool) : (s.resetEngine level).held = [] := rfl
@[simp] theorem resetEngine_masters (s : State) (level : Bool) : (s.resetEngine level).masters = s.masters := rfl
@[simp] theorem resetEngine_wait (s : State) (level : Bool) : (s.resetEngine level).wait = s.wait := rfl
@[simp] theorem resetEngine_buf (s : State) (level : Bool) : (s.resetEngine level).buf = State.reset.buf := rfl
@[simp] theorem resetEngine_inReset (s : State) (level : Bool) : (s.resetEngine level).inReset = level := rfl
@[simp] theorem resetEngine_turn (s : State) (level : Bool) : (s.resetEngine level).turn = s.turn := rfl

/-- While the reset input is asserted no write changes anything (70_reset_and_hazards.md R210). -/
theorem writeReg_of_inReset {s : State} (h : s.inReset = true) (k : Nat) (r : Reg) (v : Word) :
    s.writeReg k r v = s := by simp [State.writeReg, h]

end Sys2Proof.Machine
end

