-- ==== Sys2Proof/Laws/Step.lean ====
section
/-! SUPPORT. What each shared operation and each turn can do, said once: acceptance, completion, a master's operation, and
the step. -/
namespace Sys2Proof.Machine

theorem regAt_some {off : BitVec 6} {width : Nat} {r : Reg} (h : regAt off width = some r) :
    width = 4 ∧ off.toNat % 4 = 0 ∧ r = regAtWord (off.toNat / 4) := by
  unfold regAt at h
  split at h
  · rename_i hc
    exact ⟨hc.1, hc.2, by simpa using h.symm⟩
  · cases h

/-- Each register is at its own offset (R51). -/
theorem offset_of_regAt : ∀ {off : BitVec 6} {r : Reg}, regAt off 4 = some r → off = r.offset := by
  intro off r h
  obtain ⟨-, hal, rfl⟩ := regAt_some h
  revert hal
  clear h
  revert off
  decide

theorem regAt_offset (r : Reg) : regAt r.offset 4 = some r := by
  cases r with
  | digest i => revert i; decide
  | _ => rfl

/-- What one bus operation can come to. -/
theorem performOp_cases {k : Nat} {m : Master} {op : HostOp} {rest : List HostOp} {s t : State}
    (h : performOp k m op rest s = .next t) :
    (∃ v, op = .write 0x00#6 4 v ∧ s.inReset = false ∧ t = (s.continueMaster k m rest).offer k v)
    ∨ (∃ v, op = .write 0x04#6 4 v ∧ s.inReset = false ∧ t = { s.continueMaster k m rest with dataIn := v })
    ∨ (∃ m' : Master, t = s.continueMaster k m' rest
        ∧ (m'.vars = m.vars ∨ ∃ dst v, m'.vars = setVar m.vars dst v))
    ∨ t = s
    ∨ (op = .assertReset ∧ t = (s.continueMaster k m rest).resetEngine true)
    ∨ (op = .releaseReset ∧ s.inReset = true ∧ t = (s.continueMaster k m rest).resetEngine false) := by
  cases op with
  | write off width value =>
    simp only [performOp] at h
    split at h
    · rename_i r hr
      obtain ⟨rfl, -⟩ := regAt_some hr
      have hoff := offset_of_regAt hr
      cases h
      rcases Bool.eq_false_or_eq_true s.inReset with hres | hres
      · exact .inr (.inr (.inl ⟨m, by simp [State.writeReg, hres], .inl rfl⟩))
      · cases r with
        | cmd => exact .inl ⟨value, by rw [hoff]; rfl, hres, by simp [State.writeReg, hres]⟩
        | dataIn => exact .inr (.inl ⟨value, by rw [hoff]; rfl, hres, by simp [State.writeReg, hres]⟩)
        | _ => exact .inr (.inr (.inl ⟨m, by simp [State.writeReg, hres], .inl rfl⟩))
    · cases h
  | read off width dst =>
    simp only [performOp] at h
    split at h
    · cases h
      exact .inr (.inr (.inl ⟨_, rfl, .inr ⟨dst, _, rfl⟩⟩))
    · cases h
  | poll off mask value =>
    simp only [performOp] at h
    split at h
    · cases h
      split
      · exact .inr (.inr (.inl ⟨m, rfl, .inl rfl⟩))
      · exact .inr (.inr (.inr (.inl rfl)))
    · cases h
  | assertReset =>
    cases h
    exact .inr (.inr (.inr (.inr (.inl ⟨rfl, rfl⟩))))
  | releaseReset =>
    cases h
    rcases Bool.eq_false_or_eq_true s.inReset with hres | hres
    · exact .inr (.inr (.inr (.inr (.inr ⟨rfl, hres, by simp [hres]⟩))))
    · exact .inr (.inr (.inl ⟨m, by simp [hres], .inl rfl⟩))

/-- A master that can move has an operation to perform, and none of its writes is held. -/
theorem canMove_spec {s : State} {k : Nat} (h : s.canMove k = true) :
    ∃ m op rest, s.masters[k]? = some m ∧ m.program = op :: rest ∧ ∀ hw ∈ s.held, hw.master ≠ k := by
  unfold State.canMove at h
  split at h
  · rename_i m hm
    simp only [Bool.and_eq_true, Bool.not_eq_true', List.any_eq_false, beq_iff_eq] at h
    cases hp : m.program with
    | nil => simp [hp] at h
    | cons op rest => exact ⟨m, op, rest, hm, hp, fun hw hhw => by simpa using h.2 hw hhw⟩
  · cases h

theorem masterTurn_eq {s : State} {k : Nat} {m : Master} {op : HostOp} {rest : List HostOp}
    (hm : s.masters[k]? = some m) (hp : m.program = op :: rest) : masterTurn k s = performOp k m op rest s := by
  simp [masterTurn, hm, hp]

theorem mem_readyMasters {s : State} {k : Nat} (h : k ∈ s.readyMasters) : s.canMove k = true :=
  (List.mem_filter.mp h).2

/-- The host's turn is one operation of a master that can move, but for the count of free choices; or nothing, when none
can move. -/
theorem hostTurn_cases (s : State) :
    (s.readyMasters = [] ∧ hostTurn s = .next s)
    ∨ ∃ k u, k ∈ s.readyMasters ∧ hostTurn s = masterTurn k { s with turn := u } := by
  unfold hostTurn
  split
  · rename_i h
    exact .inl ⟨h, rfl⟩
  · rename_i k h
    exact .inr ⟨k, s.turn, by simp [h], rfl⟩
  · rename_i k k' ks h
    refine .inr ⟨_, s.turn + 1, ?_, rfl⟩
    have hlt : Config.arbiter s.turn % (ks.length + 2) < (k :: k' :: ks).length := by
      simp only [List.length_cons]
      exact Nat.mod_lt _ (by omega)
    rw [List.getElem?_eq_getElem hlt, Option.getD_some, h]
    exact List.getElem_mem _

/-- What one step can come to. -/
theorem step_cases (s : State) :
    (∃ hw rest, s.inReset = false ∧ s.pending = none ∧ s.held = hw :: rest
        ∧ step s = acceptTurn hw.word { s with held := rest })
    ∨ (∃ p, s.inReset = false ∧ s.pending = some p ∧ s.seq.phase = .done ∧ step s = exec p.cmd s)
    ∨ (∃ p, s.inReset = false ∧ s.pending = some p ∧ s.seq.phase ≠ .done
        ∧ step s = .next ({ s with seq := s.seq.step } : State).drawWait)
    ∨ (∃ k m op rest w u, s.masters[k]? = some m ∧ m.program = op :: rest ∧ s.canMove k = true
        ∧ (s.inReset = false → s.pending = none → s.held = [])
        ∧ (s.inReset = false → s.pending ≠ none → w < s.wait)
        ∧ step s = performOp k m op rest { s with wait := w, turn := u })
    ∨ ((s.inReset = false → s.pending = none ∧ s.held = []) ∧ step s = .next s) := by
  have host : ∀ w, (s.inReset = false → s.pending = none → s.held = []) →
      (s.inReset = false → s.pending ≠ none → w < s.wait) →
      (∃ k m op rest w' u, s.masters[k]? = some m ∧ m.program = op :: rest ∧ s.canMove k = true
        ∧ (s.inReset = false → s.pending = none → s.held = []) ∧ (s.inReset = false → s.pending ≠ none → w' < s.wait)
        ∧ hostTurn { s with wait := w } = performOp k m op rest { s with wait := w', turn := u })
      ∨ (s.readyMasters = [] ∧ hostTurn { s with wait := w } = .next { s with wait := w }) := by
    intro w h0 h1
    rcases hostTurn_cases { s with wait := w } with ⟨hr, he⟩ | ⟨k, u, hk, he⟩
    · exact .inr ⟨hr, he⟩
    · have hc : s.canMove k = true := mem_readyMasters hk
      obtain ⟨m, op, rest, hm, hp, -⟩ := canMove_spec hc
      refine .inl ⟨k, m, op, rest, w, u, hm, hp, hc, h0, h1, ?_⟩
      rw [he]
      exact masterTurn_eq (s := { s with wait := w, turn := u }) hm hp
  rcases Bool.eq_false_or_eq_true s.inReset with hres | hres
  · have hs : step s = hostTurn s := by simp [step, nextTurn, hres]
    rw [hs]
    rcases host s.wait (by simp [hres]) (by simp [hres]) with ⟨k, m, op, rest, w, u, hm, hp, hc, h0, h1, he⟩ | ⟨-, he⟩
    · exact .inr (.inr (.inr (.inl ⟨k, m, op, rest, w, u, hm, hp, hc, h0, h1, he⟩)))
    · exact .inr (.inr (.inr (.inr ⟨fun h => absurd h (by simp [hres]), he⟩)))
  · rcases Option.eq_none_or_eq_some s.pending with hpend | ⟨p, hpend⟩
    · by_cases hheld : s.held = []
      · have hs : step s = hostTurn s := by simp [step, nextTurn, hres, hpend, hheld]
        rw [hs]
        rcases host s.wait (fun _ _ => hheld) (fun _ h => absurd hpend h) with
          ⟨k, m, op, rest, w, u, hm, hp, hc, h0, h1, he⟩ | ⟨-, he⟩
        · exact .inr (.inr (.inr (.inl ⟨k, m, op, rest, w, u, hm, hp, hc, h0, h1, he⟩)))
        · exact .inr (.inr (.inr (.inr ⟨fun _ => ⟨hpend, hheld⟩, he⟩)))
      · obtain ⟨hw, rest, hh⟩ := List.exists_cons_of_ne_nil hheld
        exact .inl ⟨hw, rest, hres, hpend, hh, by simp [step, nextTurn, hres, hpend, hh]⟩
    · have hs : step s = if s.readyMasters = [] ∨ s.wait = 0 then sequencerTurn p s
          else hostTurn { s with wait := s.wait - 1 } := by simp [step, nextTurn, hres, hpend]
      rw [hs]
      by_cases hturn : s.readyMasters = [] ∨ s.wait = 0
      · rw [if_pos hturn]
        unfold sequencerTurn
        by_cases hdone : s.seq.phase = .done
        · rw [if_pos hdone]
          exact .inr (.inl ⟨p, hres, hpend, hdone, rfl⟩)
        · rw [if_neg hdone]
          exact .inr (.inr (.inl ⟨p, hres, hpend, hdone, rfl⟩))
      · rw [if_neg hturn]
        rcases host (s.wait - 1) (fun _ h => by simp [hpend] at h) (fun _ _ => by omega) with
          ⟨k, m, op, rest, w, u, hm, hp, hc, h0, h1, he⟩ | ⟨hr, -⟩
        · exact .inr (.inr (.inr (.inl ⟨k, m, op, rest, w, u, hm, hp, hc, h0, h1, he⟩)))
        · exact absurd (.inl hr) hturn

/-- What a command's next moment comes to: held, refused, accepted, or completed (R140, R162). -/
theorem exec_cases (i : Instr) (s : State) :
    (∃ p, s.pending = some p ∧ p.cmd ≠ i ∧ exec i s = .next s)
    ∨ (i = .nop ∧ exec i s = .next s)
    ∨ (s.pending = none ∧ i ≠ .nop ∧ (i = .init ∨ s.life = .active) ∧ exec i s = .next (s.accept i))
    ∨ (s.pending = none ∧ i ≠ .nop ∧ i ≠ .init ∧ s.life ≠ .active
        ∧ ∃ c, c ≠ .none ∧ exec i s = .next (s.usageError c (encode i)))
    ∨ (∃ p, s.pending = some p ∧ p.cmd = i ∧ i = .init ∧ exec i s = .next s.commitInit)
    ∨ (∃ p, s.pending = some p ∧ p.cmd = i ∧ ((∃ b, i = .absorbB b) ∨ ∃ n, i = .absorbW n)
        ∧ exec i s = .next s.commitAbsorb)
    ∨ (∃ p, s.pending = some p ∧ p.cmd = i ∧ i = .finalize ∧ exec i s = .next s.commitFinalize) := by
  cases hp : s.pending with
  | none =>
    by_cases hl : s.life = .active
    · cases i <;> simp [exec, execNop, execInit, execAbsorbB, execAbsorbW, execFinalize, State.atMoment, hp,
        State.acceptInActive, hl]
    · cases i <;> simp [exec, execNop, execInit, execAbsorbB, execAbsorbW, execFinalize, State.atMoment, hp,
        State.acceptInActive, hl]
      · exact ⟨.absorbNotActive, by decide, rfl⟩
      · exact ⟨.absorbNotActive, by decide, rfl⟩
      · exact ⟨.finalizeNotActive, by decide, rfl⟩
  | some p =>
    by_cases hi : p.cmd = i
    · subst hi
      cases hc : p.cmd <;> simp [exec, execNop, execInit, execAbsorbB, execAbsorbW, execFinalize, State.atMoment, hp, hc]
    · cases i <;> simp [exec, execNop, execInit, execAbsorbB, execAbsorbW, execFinalize, State.atMoment, hp, hi]

/-- No meaning refuses or faults: every command ends in a next state. -/
theorem exec_next (i : Instr) (s : State) : ∃ t, exec i s = .next t := by
  cases i <;> exact ⟨_, rfl⟩

/-- At its acceptance the sequencer is at the start of the command's effect on copies of the committed values (R31). -/
theorem accept_workInv {i : Instr} (h : i.wf = true) (s : State) : (s.accept i).workInv := by
  cases i with
  | nop => exact trivial
  | init => exact trivial
  | absorbB b => exact (run_absorb (q := (s.accept (.absorbB b)).seq) rfl (by simp [Sequencer.start])).1
  | absorbW n =>
    have hn : 1 ≤ n ∧ n ≤ 4 := by simpa [Instr.wf] using h
    have hlen := captureBytes_length s.dataIn hn.2
    refine (run_absorb (q := (s.accept (.absorbW n)).seq) rfl ?_).1
    intro he
    have : captureBytes n s.dataIn = [] := he
    simp [this] at hlen
    omega
  | finalize => exact (run_pad (q := (s.accept .finalize).seq) rfl rfl).1

end Sys2Proof.Machine
end

