-- ==== Sys2Proof/Laws/Run.lean ====
section
/-! SUPPORT. Runs of the machine behind the host's interface, one step at a time. -/
namespace Sys2Proof.Machine

theorem run_succ_of_next (M : Host.Core) {n : Nat} {s t : M.State} (h : M.step s = .next t) :
    M.run (n + 1) s = M.run n t := by simp only [Host.Core.run, h]

theorem run_succ_of_fault (M : Host.Core) {n : Nat} {s : M.State} {f : M.Fault} (h : M.step s = .fault f) :
    M.run (n + 1) s = .fault f := by simp only [Host.Core.run, h]

/-- A run goes on from the next state. -/
theorem core_run_next {n : Nat} {s t : State} (h : step s = .next t) :
    Sys2Proof.core.run (n + 1) s = Sys2Proof.core.run n t := run_succ_of_next Sys2Proof.core h

/-- A run ends at a fault. -/
theorem core_run_fault {n : Nat} {s : State} {f : Fault} (h : step s = .fault f) :
    Sys2Proof.core.run (n + 1) s = .fault f := run_succ_of_fault Sys2Proof.core h

end Sys2Proof.Machine
end

