-- ==== Sys2Proof/Tests/Slice0.lean ====
section
/-! SUPPORT. Tests of the model against values written in the spec, each about one command or one bus access, and for every
statement with hypotheses a concrete state and operands that meet them. -/
namespace Sys2Proof.Tests
open Sys2Proof Sys2Proof.Machine

/-! ### Well-formedness (30_encoding.md R89) -/

theorem test_wf_refuses_zero_bytes : (Instr.absorbW 0).wf = false := by decide

theorem test_wf_refuses_five_bytes : (Instr.absorbW 5).wf = false := by decide

theorem test_wf_accepts_one_to_four_bytes : ∀ n ∈ [1, 2, 3, 4], (Instr.absorbW n).wf = true := by decide

/-! ### Decoding: words written out bit by bit from the patterns of R84 -/

theorem test_decode_nop : decode 0b00000000000000000000000000000000#32 = .ok .nop := by decide

theorem test_decode_init : decode 0b00000000000000000000000000000001#32 = .ok .init := by decide

theorem test_decode_absorbB : decode 0b00000000000000000110100000000010#32 = .ok (.absorbB 0b01101000#8) := by
  decide +kernel

theorem test_decode_absorbW : decode 0b00000000000000000000000000100011#32 = .ok (.absorbW 3) := by
  decide +kernel

theorem test_decode_finalize : decode 0b00000000000000000000000000000100#32 = .ok .finalize := by decide

/-- Illegal words of 95_test_vectors.md V14 with OP 5 or 15. -/
theorem test_decode_reserved_op : decode 0x00000005#32 = .error .reservedOp ∧ decode 0x0000000f#32 = .error .reservedOp
    ∧ decode 0xffffffff#32 = .error .reservedOp := by decide

/-- Illegal words of V14 with OP 0 to 2. -/
theorem test_decode_unused_bits_low : decode 0x00000010#32 = .error .nonzeroUnusedBits
    ∧ decode 0x00010000#32 = .error .nonzeroUnusedBits ∧ decode 0x80000000#32 = .error .nonzeroUnusedBits
    ∧ decode 0x00000101#32 = .error .nonzeroUnusedBits ∧ decode 0x00000042#32 = .error .nonzeroUnusedBits
    ∧ decode 0x00010002#32 = .error .nonzeroUnusedBits := by decide

/-- Illegal words of V14 with OP 3 and 4. -/
theorem test_decode_unused_bits_high : decode 0x00000043#32 = .error .nonzeroUnusedBits
    ∧ decode 0x00000103#32 = .error .nonzeroUnusedBits ∧ decode 0x80000003#32 = .error .nonzeroUnusedBits
    ∧ decode 0x00000014#32 = .error .nonzeroUnusedBits := by decide

theorem test_decodeTableWord : decodeTableWord 32 0x6802 = some (.absorbB 0x68#8) := by decide

/-! ### One command each -/

/-- A result is a next state of which `f` holds. -/
def answers (r : Result) (f : State → Bool) : Bool :=
  match r with
  | .next t => f t
  | .fault _ => false
  | .refused _ => false

/-- An engine in ACTIVE with no byte absorbed. -/
def active : State := { State.reset with life := .active, h := initialHash }

/-- An engine in FINALIZED, with the digest words of 41_commands.md R159's example. -/
def finalized : State :=
  { State.reset with
    life := .finalized
    h := #v[0xe3b0c442#32, 0x98fc1c14#32, 0x9afbf4c8#32, 0x996fb924#32, 0x27ae41e4#32, 0x649b934c#32, 0xa495991b#32,
      0x7852b855#32] }

/-- V13 row 8. -/
theorem test_nop_in_finalized : answers (exec .nop finalized) (fun t => t.window == finalized.window) = true := by
  decide +kernel

/-- R156's example: from reset, STATUS = 0x00000001 and COUNT = 0. -/
theorem test_init_from_reset :
    answers (runCommand .init State.reset)
      (fun t => t.readReg .status == 0x00000001#32 && t.readReg .countLo == 0#32) = true := by decide +kernel

/-- R157's example: STATUS = 0x00000101, count = 1, buf[0] = 0x68. -/
theorem test_absorbB_first_byte :
    answers (runCommand (.absorbB 0x68#8) active)
      (fun t => t.readReg .status == 0x00000101#32 && t.count == 1#64 && nth t.buf 0 == 0x68#8) = true := by
  decide +kernel

/-- 95_test_vectors.md V16: the counter wraps on a block boundary, and the block is compressed. -/
theorem test_absorbB_counter_wrap :
    answers (runCommand (.absorbB 0x00#8) { active with count := 0xffffffffffffffff#64 })
      (fun t => t.h == #v[0xda5698be#32, 0x17b9b469#32, 0x62335799#32, 0x779fbeca#32, 0x8ce5d491#32, 0xc0d26243#32,
        0xbafef9ea#32, 0x1837a9d8#32] && t.readReg .status == 0x00000001#32) = true := by decide +kernel

/-- R158's example: DATA_IN = 0x616263ff, three bytes, STATUS = 0x00000301. -/
theorem test_absorbW_three_bytes :
    answers (runCommand (.absorbW 3) { active with dataIn := 0x616263ff#32 })
      (fun t => t.readReg .status == 0x00000301#32 && nth t.buf 2 == 0x63#8 && nth t.buf 3 == 0x00#8) = true := by
  decide +kernel

/-- V13 rows 1 and 2: the record keeps the first error. -/
theorem test_absorb_and_finalize_in_idle :
    answers (Result.andThen (runCommand (.absorbB 0x61#8) State.reset) (runCommand .finalize))
      (fun t => t.readReg .status == 0x00000008#32 && t.readReg .errCause == 2#32
        && t.readReg .errCmd == 0x00006102#32) = true := by decide +kernel

/-- T1: the empty message's digest. -/
theorem test_finalize_empty_message :
    answers (runCommand .finalize active)
      (fun t => t.h == finalized.h && t.readReg .status == 0x00000002#32) = true := by decide +kernel

/-- T2: the words of the digest of "abc". -/
theorem test_sha256_abc :
    sha256 [0x61#8, 0x62#8, 0x63#8]
      = #v[0xba7816bf#32, 0x8f01cfea#32, 0x414140de#32, 0x5dae2223#32, 0xb00361a3#32, 0x96177a9c#32, 0xb410ff61#32,
          0xf20015ad#32] := by decide +kernel

/-! ### Bus accesses (V15) and the schedule of turns -/

/-- One master with a program. -/
def master (program : List HostOp) : Master := ⟨program, []⟩

/-- `s` with one master that has `op` to do. -/
def withOp (s : State) (op : HostOp) : State := { s with masters := [master [op]] }

/-- The reset input is asserted, and one master has `program` to do. -/
def resetAsserted (program : List HostOp) : State :=
  { State.reset with inReset := true, masters := [master program] }

/-- V15: a misaligned 32-bit write is a bus error. -/
theorem test_misaligned_write : step (withOp State.reset (.write 0x02#6 4 1#32)) = .fault (.busError 0x02#6 4) := by
  rfl

/-- V15: an 8-bit read is a bus error. -/
theorem test_byte_read : step (withOp State.reset (.read 0x08#6 1 0)) = .fault (.busError 0x08#6 1) := by rfl

/-- V15: the high half of a count of 0x0000000100000005. -/
theorem test_read_count_hi :
    answers (step { withOp State.reset (.read 0x14#6 4 0) with count := 0x0000000100000005#64 })
      (fun t => t.masters == [⟨[], [(0, 1#32)]⟩]) = true := by decide +kernel

/-- R210: with the reset input asserted a CMD write starts nothing, and DATA_IN keeps its reset value. -/
theorem test_writes_under_reset :
    answers (Result.andThen (step (resetAsserted [.write 0x00#6 4 1#32, .write 0x04#6 4 7#32])) step)
      (fun t => t.held.isEmpty && !t.busy && t.dataIn == 0#32 && t.masters == [⟨[], []⟩]) = true := by decide +kernel

/-- R162, V14: an illegal word is not a fault; it is recorded at acceptance. -/
theorem test_illegal_word_is_recorded :
    answers (step (State.reset.withFetchWord 32 0x12))
      (fun t => t.err && t.cause == .illegalCmd && t.errCmd == 0x00000012#32 && !t.busy) = true := by decide

/-- A word placed for the next step is accepted by it. -/
theorem test_placed_init_is_accepted :
    answers (step (State.reset.withFetchWord 32 1)) (fun t => t.pending == some ⟨.init, []⟩) = true := by decide

/-! ### Witnesses: a concrete state and operands for the hypotheses of every statement that has some -/

/-- The first command of a message is pending and done but for its completion. -/
def initPending : State :=
  { State.reset with pending := some ⟨.init, []⟩, seq := { Sequencer.reset with phase := .done } }

/-- ABSORB.W #4 has just been accepted, at fill position 62. -/
def absorbPending : State :=
  { active with
    count := 62#64
    pending := some ⟨.absorbW 4, [1#8, 2#8, 3#8, 4#8]⟩
    seq := Sequencer.reset.start (.absorbW 4) [1#8, 2#8, 3#8, 4#8] active.h 62#64 active.buf }

/-- FINALIZE is pending and its padding has come to DONE. -/
def finalizePending : State :=
  { active with
    pending := some ⟨.finalize, []⟩
    seq := { Sequencer.reset with
      phase := .done, workH := (pad active.message).h, workBuf := (pad active.message).buf } }

/-- Two masters that can move. -/
def withTwoOps (s : State) : State :=
  { s with masters := [master [.write 0x04#6 4 7#32], master [.read 0x08#6 4 0]] }

/-- A write of `w` is held. -/
def offered (s : State) (w : Word) : State := { s with held := [⟨0, w⟩] }

theorem inv_of_no_error {s : State} (h1 : s.slotInv) (h2 : s.err = false ∧ s.cause = .none ∧ s.errCmd = 0#32)
    (h3 : s.life = .idle → s.count = 0#64) (h4 : s.seq.t = 0 ∧ s.seq.p = 0) (h5 : s.held = [])
    (h6 : ∀ m ∈ s.masters, m.vars = []) (h7 : s.workInv) (h8 : s.resetInv) : s.Inv := by
  refine ⟨h1, ⟨fun _ => h2.2, fun h => ?_⟩, h3, ?_, ?_, ?_, h7, h8⟩
  · rw [h2.1] at h
    cases h
  · unfold State.cursorInv
    omega
  · simp [State.heldInv, h5]
  · intro m hm
    simp [Master.wf, h6 m hm]

theorem slotInv_pending {s : State} {p : Pending} (h : s.pending = some p)
    (hp : p.wf = true ∧ p.legalIn s.life = true ∧ s.seq.fits p.cmd s.count = true) : s.slotInv := by
  simpa [State.slotInv, h] using hp

theorem slotInv_empty {s : State} (h : s.pending = none) (hq : s.seq.phase = .idle) : s.slotInv := by
  simpa [State.slotInv, h] using hq

theorem workInv_empty {s : State} (h : s.pending = none) : s.workInv := by simp [State.workInv, h]

theorem workInv_init {s : State} (h : s.pending = some ⟨.init, []⟩) : s.workInv := by simp [State.workInv, h]

theorem resetInv_released {s : State} (h : s.inReset = false) : s.resetInv := by simp [State.resetInv, h]

theorem absorbPending_inv : absorbPending.Inv :=
  inv_of_no_error (slotInv_pending rfl (by decide)) (by decide) (by decide) (by decide) rfl (by decide)
    (run_absorb (q := absorbPending.seq) rfl (by decide)).1 (resetInv_released rfl)

theorem initPending_inv : initPending.Inv :=
  inv_of_no_error (slotInv_pending rfl (by decide)) (by decide) (by decide) (by decide) rfl (by decide)
    (workInv_init rfl) (resetInv_released rfl)

theorem finalizePending_inv : finalizePending.Inv :=
  inv_of_no_error (slotInv_pending rfl (by decide)) (by decide) (by decide) (by decide) rfl (by decide) rfl
    (resetInv_released rfl)

theorem inv_of_idle_slot {s : State} (h : s.pending = none) (hq : s.seq.phase = .idle)
    (h2 : s.err = false ∧ s.cause = .none ∧ s.errCmd = 0#32) (h3 : s.life = .idle → s.count = 0#64)
    (h4 : s.seq.t = 0 ∧ s.seq.p = 0) (h5 : s.held = []) (h6 : ∀ m ∈ s.masters, m.vars = []) (h8 : s.resetInv) : s.Inv :=
  inv_of_no_error (slotInv_empty h hq) h2 h3 h4 h5 h6 (workInv_empty h) h8

theorem witness_decode_encode : (Instr.absorbW 4).wf = true ∧ (Instr.absorbW 1).wf = true := by decide

theorem witness_encode_decode : decode 0x00000033#32 = .ok (.absorbW 4) := by decide

theorem witness_rows : (∃ r ∈ rows, r.selects 0x0000ff02#32 = true) ∧ decode 0x0000ff02#32 = .ok (.absorbB 0xff#8) := by
  decide

theorem witness_nop_accepted : (offered active 0#32).inReset = false ∧ (offered active 0#32).pending = none
    ∧ (offered active 0#32).held = ⟨0, 0#32⟩ :: [] := ⟨rfl, rfl, rfl⟩

theorem witness_still_pending : ∃ t, absorbPending.pending = some ⟨.absorbW 4, [1#8, 2#8, 3#8, 4#8]⟩
    ∧ step absorbPending = .next t ∧ t.pending = some ⟨.absorbW 4, [1#8, 2#8, 3#8, 4#8]⟩ := ⟨_, rfl, rfl, rfl⟩

theorem witness_command_waits : initPending.inReset = false ∧ initPending.pending = some ⟨.init, []⟩
    ∧ Instr.init ≠ Instr.finalize := by decide

/-- The step of a pending command's state that asserts the reset input. -/
theorem witness_pending_discarded : ∃ t, (withOp { absorbPending with wait := 1 } .assertReset).pending ≠ none
    ∧ step (withOp { absorbPending with wait := 1 } .assertReset) = .next t ∧ t.pending = none ∧ t.inReset = true :=
  ⟨_, by decide, rfl, rfl, rfl⟩

theorem witness_nothing_pending : State.reset.pending = none ∧ State.reset.life ≠ .active ∧ active.pending = none
    ∧ active.life = .active := by decide

theorem witness_absorbW_bounds : (1 ≤ 1 ∧ 1 ≤ 4) ∧ (1 ≤ 4 ∧ 4 ≤ 4)
    ∧ [0x11#8] = [0x11#8, 0x22#8, 0x33#8, 0x44#8].take 1
    ∧ [0x11#8, 0x22#8, 0x33#8, 0x44#8] = [0x11#8, 0x22#8, 0x33#8, 0x44#8].take 4 := by decide

theorem witness_illegal_word : finalized.inReset = false ∧ (offered finalized 0x80000000#32).pending = none
    ∧ (offered finalized 0x80000000#32).held = ⟨0, 0x80000000#32⟩ :: []
    ∧ decode 0x80000000#32 = .error .nonzeroUnusedBits := by decide

theorem witness_refused_absorb : finalized.inReset = false ∧ (offered finalized 0x00006102#32).pending = none ∧ finalized.life ≠ .active
    ∧ (offered finalized 0x00006102#32).held = ⟨0, 0x00006102#32⟩ :: []
    ∧ decode 0x00006102#32 = .ok (.absorbB 0x61#8) ∧ decode 0x00000013#32 = .ok (.absorbW 2) := by decide +kernel

theorem witness_refused_finalize : State.reset.inReset = false ∧ (offered State.reset 4#32).pending = none ∧ State.reset.life ≠ .active
    ∧ (offered State.reset 4#32).held = ⟨0, 4#32⟩ :: [] ∧ decode 4#32 = .ok .finalize := by decide

theorem witness_offered_command : active.inReset = false ∧ (offered active 0x13#32).pending = none
    ∧ (offered active 0x13#32).held = ⟨0, 0x13#32⟩ :: [] ∧ decode 0x13#32 = .ok (.absorbW 2) := by decide

theorem witness_sequencer_turn : absorbPending.inReset = false ∧ absorbPending.pending ≠ none ∧ absorbPending.readyMasters = []
    ∧ absorbPending.seq.phase ≠ .done ∧ initPending.pending ≠ none ∧ (withTwoOps initPending).readyMasters = [0, 1]
    ∧ (withTwoOps initPending).wait = 0 ∧ initPending.seq.phase = .done := by decide

theorem witness_host_turn_while_pending : (withOp absorbPending (.read 0x08#6 4 0)).pending ≠ none
    ∧ (withOp absorbPending (.read 0x08#6 4 0)).readyMasters = [0]
    ∧ ({ withOp absorbPending (.read 0x08#6 4 0) with wait := 1 } : State).wait ≠ 0 := by decide

theorem witness_several_masters : (withTwoOps active).pending = none ∧ (withTwoOps active).held = []
    ∧ (withTwoOps active).readyMasters ≠ []
    ∧ ({ withTwoOps absorbPending with wait := 1 } : State).readyMasters = [0, 1]
    ∧ ({ withTwoOps absorbPending with wait := 1 } : State).pending ≠ none := by decide

theorem witness_idle : (withOp active .assertReset).pending = none ∧ (withOp active .assertReset).held = []
    ∧ (withOp active .assertReset).readyMasters = [0] ∧ active.readyMasters = [] := by decide

theorem witness_reset_asserted_turns : (resetAsserted [.releaseReset]).inReset = true
    ∧ (resetAsserted [.releaseReset]).readyMasters = [0] ∧ (resetAsserted []).readyMasters = [] := by decide

theorem witness_bad_access : step (withOp active (.poll 0x3E#6 0#32 0#32)) = .fault (.busError 0x3E#6 4) := by rfl

theorem witness_inv_absorb : absorbPending.Inv ∧ ∃ t, step absorbPending = .next t :=
  ⟨absorbPending_inv, _, rfl⟩

theorem witness_life_init : initPending.Inv ∧ ∃ t, step initPending = .next t ∧ t.life ≠ initPending.life :=
  ⟨initPending_inv, _, rfl, by decide⟩

theorem witness_life_finalize :
    finalizePending.Inv ∧ ∃ t, step finalizePending = .next t ∧ t.life ≠ finalizePending.life :=
  ⟨finalizePending_inv, _, rfl, by decide⟩

theorem witness_life_reset :
    (withOp active .assertReset).Inv ∧ ∃ t, step (withOp active .assertReset) = .next t ∧ t.life ≠ active.life :=
  ⟨inv_of_idle_slot rfl rfl (by decide) (by decide) (by decide) rfl (by decide) (resetInv_released rfl), _, rfl,
    by decide⟩

theorem witness_error_record :
    ({ initPending with err := true, cause := .illegalCmd, errCmd := 5#32 } : State).Inv
    ∧ ∃ t, step { initPending with err := true, cause := .illegalCmd, errCmd := 5#32 } = .next t := by
  refine ⟨⟨slotInv_pending rfl (by decide), ⟨by decide, by decide⟩, fun _ => rfl, ⟨by decide, by decide⟩,
    List.nodup_nil, (fun _ h => nomatch h), workInv_init rfl, resetInv_released rfl⟩, _, rfl⟩

theorem witness_finalized : finalized.Inv ∧ finalized.life = .finalized ∧ ∃ t, step finalized = .next t :=
  ⟨inv_of_idle_slot rfl rfl (by decide) (by decide) (by decide) rfl (by decide) (resetInv_released rfl), rfl, _, rfl⟩

theorem witness_writers : (∃ t, step finalizePending = .next t) ∧ ∀ m ∈ finalizePending.masters,
    ∀ rest, m.program ≠ .assertReset :: rest ∧ m.program ≠ .releaseReset :: rest := ⟨⟨_, rfl⟩, fun _ h => nomatch h⟩

theorem witness_completion : ∃ t, finalizePending.pending = some ⟨.finalize, []⟩
    ∧ exec .finalize finalizePending = .next t := ⟨_, rfl, rfl⟩

theorem witness_compression :
    ({ Sequencer.reset with phase := .compressing .pad1 .load } : Sequencer).phase = .compressing .pad1 .load := rfl

theorem witness_absorb_steps : absorbPending.seq.phase = .absorbing ∧ absorbPending.seq.rest ≠ [] := by decide

/-- PAD_80 on a message of `c` bytes. -/
def padStart (c : Count) : Sequencer :=
  { Sequencer.reset with phase := .pad80, workCount := c, p := c.toNat % 64 }

/-- The longest message with one padding block, the shortest with two, and one that fills its block. -/
theorem witness_padding_steps :
    ((padStart 55#64).phase = .pad80 ∧ (padStart 55#64).p = (padStart 55#64).workCount.toNat % 64)
    ∧ ((padStart 56#64).phase = .pad80 ∧ (padStart 56#64).p = (padStart 56#64).workCount.toNat % 64)
    ∧ ((padStart 63#64).phase = .pad80 ∧ (padStart 63#64).p = (padStart 63#64).workCount.toNat % 64) :=
  ⟨⟨rfl, rfl⟩, ⟨rfl, rfl⟩, rfl, rfl⟩

/-- Indices at the ends of the ranges that the statements on bits, schedules, rounds and digests quantify over. -/
theorem witness_index_ranges : (0 < 32 ∧ 31 < 32) ∧ (0 < 16 ∧ 15 < 16) ∧ (16 ≤ 16 ∧ 16 < 64) ∧ (16 ≤ 63 ∧ 63 < 64)
    ∧ (0 < 8 ∧ 7 < 8) ∧ (31 < 32 ∧ finalized.life = .finalized) := by decide

/-- Counts on both sides of each case of the statements on messages. -/
theorem witness_counts : (BitVec.ofNat 64 (2 ^ 61 - 1)).toNat < 2 ^ 61 ∧ (55#64).toNat % 64 ≤ 55 ∧ 56 ≤ (56#64).toNat % 64
    ∧ (63#64 + 1#64 : Count).toNat % 64 = 0 ∧ (64#64 + 1#64 : Count).toNat % 64 ≠ 0 := by decide +kernel

/-- Two buffers that agree below fill position 2 and differ at it. -/
theorem witness_stale_bytes :
    (∀ j < (2#64).toNat % 64, nth (put (Vector.replicate 64 0#8) 2 9#8) j = nth (Vector.replicate 64 0#8) j)
    ∧ nth (put (Vector.replicate 64 0#8) 2 9#8) 2 ≠ nth (Vector.replicate 64 0#8) 2 := by decide +kernel

theorem witness_chunks : active.pending = none ∧ active.life = .active
    ∧ (∀ c ∈ [Chunk.byte 0x61#8, Chunk.word 4 0x62636465#32], c.wf = true)
    ∧ (∀ c ∈ [Chunk.word 3 0x616263ff#32, Chunk.byte 0x64#8, Chunk.word 1 0x65000000#32], c.wf = true)
    ∧ [Chunk.byte 0x61#8, Chunk.word 4 0x62636465#32].flatMap Chunk.bytes
      = [Chunk.word 3 0x616263ff#32, Chunk.byte 0x64#8, Chunk.word 1 0x65000000#32].flatMap Chunk.bytes := by
  decide +kernel

theorem witness_digest : finalized.pending = none ∧ (∀ c ∈ [Chunk.word 3 0x61626300#32], c.wf = true)
    ∧ [Chunk.word 3 0x61626300#32].flatMap Chunk.bytes = [0x61#8, 0x62#8, 0x63#8]
    ∧ [0x61#8, 0x62#8, 0x63#8].length < 2 ^ 61 := by decide +kernel

/-- Offsets of the last register and of a misaligned access. -/
theorem witness_offsets : (0x3C#6).toNat % 4 = 0 ∧ 0x3C#6 ≠ 0x00#6 ∧ 0x3C#6 ≠ 0x04#6 ∧ (0x3F#6).toNat % 4 ≠ 0
    ∧ regAt 0x3C#6 4 = some (.digest 7) := by decide

theorem witness_polls : active.readReg .status &&& 3#32 = 1#32 ∧ active.readReg .status &&& 4#32 ≠ 4#32
    ∧ active.life ≠ .finalized := by decide

/-- After INIT and no byte, with a command pending, an engine holds the empty message. -/
theorem active_holdsMessage (s : State) (hl : s.life = .active) (hc : s.count = 0#64) (hh : s.h = initialHash) :
    s.holdsMessage [] := by
  simp [State.holdsMessage, hl, hc, hh, compressBlocks]

theorem witness_message : finalizePending.Inv ∧ finalizePending.holdsMessage []
    ∧ ∃ t, step finalizePending = .next t ∧ t.life = .finalized :=
  ⟨finalizePending_inv, active_holdsMessage _ rfl rfl rfl, _, rfl, rfl⟩

theorem witness_reset_held_asserted :
    (resetAsserted [.write 0x00#6 4 1#32]).Inv ∧ (resetAsserted [.write 0x00#6 4 1#32]).inReset = true
    ∧ ∃ t, step (resetAsserted [.write 0x00#6 4 1#32]) = .next t ∧ t.inReset = true :=
  ⟨inv_of_idle_slot rfl rfl (by decide) (by decide) (by decide) rfl (by decide) (fun _ => by decide), rfl, _, rfl, rfl⟩

theorem witness_reset_released :
    (resetAsserted [.releaseReset]).Inv ∧ (resetAsserted [.releaseReset]).inReset = true
    ∧ ∃ t, step (resetAsserted [.releaseReset]) = .next t ∧ t.inReset = false :=
  ⟨inv_of_idle_slot rfl rfl (by decide) (by decide) (by decide) rfl (by decide) (fun _ => by decide), rfl, _, rfl, rfl⟩

end Sys2Proof.Tests
end

section
/-! SUPPORT and PROOFS. The statements on the state (spec/10_state.md): what one step can do to the whole state, said
once, and the invariant, the message, the lifecycle, the registers and the completions that follow from it. -/
namespace Sys2Proof.Machine

/-! ### What one step can do -/

/-- An absorbing command: ABSORB.B or ABSORB.W (R145). -/
def IsAbsorb (i : Instr) : Prop := (∃ b, i = .absorbB b) ∨ ∃ n, i = .absorbW n

/-- What one step can make of `s`: the turn of one agent, with the whole next state. A statement about a step is a case
analysis on this; `turn_of_step` ties it to `step`. -/
inductive Turn (s : State) : State → Prop where
  /-- A held NOP is taken off the held writes (R155). -/
  | acceptNop {hw : HeldWrite} {rest : List HeldWrite} (hres : s.inReset = false) (hpend : s.pending = none)
      (hheld : s.held = hw :: rest) : Turn s ({ s with held := rest } : State).drawWait
  /-- A held command becomes pending (R62). -/
  | accept {hw : HeldWrite} {rest : List HeldWrite} {i : Instr} (hres : s.inReset = false) (hpend : s.pending = none)
      (hheld : s.held = hw :: rest) (hdec : decode hw.word = .ok i) (hnop : i ≠ .nop)
      (hlegal : i = .init ∨ s.life = .active) : Turn s (({ s with held := rest } : State).drawWait.accept i)
  /-- A held word is refused (R182). -/
  | refuse {hw : HeldWrite} {rest : List HeldWrite} {c : Cause} {w : Word} (hres : s.inReset = false)
      (hpend : s.pending = none) (hheld : s.held = hw :: rest) (hc : c ≠ .none) :
      Turn s (({ s with held := rest } : State).drawWait.usageError c w)
  /-- One internal step of the sequencer (R141). -/
  | internal {p : Pending} (hres : s.inReset = false) (hpend : s.pending = some p) (hdone : s.seq.phase ≠ .done) :
      Turn s ({ s with seq := s.seq.step } : State).drawWait
  /-- The completion of INIT (R156). -/
  | completeInit {p : Pending} (hres : s.inReset = false) (hpend : s.pending = some p) (hdone : s.seq.phase = .done)
      (hcmd : p.cmd = .init) : Turn s s.commitInit
  /-- The completion of an absorb (R157, R158). -/
  | completeAbsorb {p : Pending} (hres : s.inReset = false) (hpend : s.pending = some p) (hdone : s.seq.phase = .done)
      (hcmd : IsAbsorb p.cmd) : Turn s s.commitAbsorb
  /-- The completion of FINALIZE (R159). -/
  | completeFinalize {p : Pending} (hres : s.inReset = false) (hpend : s.pending = some p)
      (hdone : s.seq.phase = .done) (hcmd : p.cmd = .finalize) : Turn s s.commitFinalize
  /-- A master's write of CMD is offered (R140). -/
  | offer {k : Nat} {m : Master} {rest : List HostOp} {v : Word} {w u : Nat} (hm : m ∈ s.masters)
      (hfree : ∀ hw ∈ s.held, hw.master ≠ k) (hres : s.inReset = false) :
      Turn s ((({ s with wait := w, turn := u } : State).continueMaster k m rest).offer k v)
  /-- A master's write of DATA_IN (R54). -/
  | storeDataIn {k : Nat} {m : Master} {rest : List HostOp} {v : Word} {w u : Nat} (hm : m ∈ s.masters)
      (hop : m.program = .write 0x04#6 4 v :: rest) (hres : s.inReset = false) :
      Turn s (({ s with wait := w, turn := u, dataIn := v } : State).continueMaster k m rest)
  /-- A master goes on and the engine stays (R60, R61). -/
  | goOn {k : Nat} {m m' : Master} {rest : List HostOp} {w u : Nat} (hm : m ∈ s.masters)
      (hvars : m'.vars = m.vars ∨ ∃ dst v, m'.vars = setVar m.vars dst v) :
      Turn s (({ s with wait := w, turn := u } : State).continueMaster k m' rest)
  /-- A master asserts the reset input (R210). -/
  | assertReset {k : Nat} {m : Master} {rest : List HostOp} {w u : Nat} (hm : m ∈ s.masters)
      (hop : m.program = .assertReset :: rest) :
      Turn s ((({ s with wait := w, turn := u } : State).continueMaster k m rest).resetEngine true)
  /-- A master releases the asserted reset input (R210). -/
  | releaseReset {k : Nat} {m : Master} {rest : List HostOp} {w u : Nat} (hm : m ∈ s.masters)
      (hop : m.program = .releaseReset :: rest) (hres : s.inReset = true) :
      Turn s ((({ s with wait := w, turn := u } : State).continueMaster k m rest).resetEngine false)
  /-- Nothing but the model's two counters moves. -/
  | stay {w u : Nat} : Turn s { s with wait := w, turn := u }

/-- The acceptance of a held word is one of the three turns that take it. -/
theorem turn_of_acceptTurn {s t : State} {hw : HeldWrite} {rest : List HeldWrite} (hres : s.inReset = false)
    (hpend : s.pending = none) (hheld : s.held = hw :: rest)
    (h : acceptTurn hw.word { s with held := rest } = .next t) : Turn s t := by
  unfold acceptTurn at h
  split at h
  · rename_i i hdec
    rcases exec_cases i ({ s with held := rest } : State).drawWait with
      ⟨p, hp, -⟩ | ⟨-, he⟩ | ⟨-, hnop, hlegal, he⟩ | ⟨-, -, -, -, c, hc, he⟩ | ⟨p, hp, -⟩ | ⟨p, hp, -⟩ | ⟨p, hp, -⟩
    · simp [hpend] at hp
    · cases he.symm.trans h
      exact .acceptNop hres hpend hheld
    · cases he.symm.trans h
      exact .accept hres hpend hheld hdec hnop hlegal
    · cases he.symm.trans h
      exact .refuse hres hpend hheld hc
    all_goals simp [hpend] at hp
  · cases h
    exact .refuse hres hpend hheld (by decide)

/-- The last moment of a pending command is its completion. -/
theorem turn_of_completion {s t : State} {p : Pending} (hres : s.inReset = false) (hpend : s.pending = some p)
    (hdone : s.seq.phase = .done) (h : exec p.cmd s = .next t) : Turn s t := by
  rcases exec_cases p.cmd s with ⟨p', hp, hne, -⟩ | ⟨-, he⟩ | ⟨hp, -⟩ | ⟨hp, -⟩ | ⟨-, -, -, hcmd, he⟩
    | ⟨-, -, -, hcmd, he⟩ | ⟨-, -, -, hcmd, he⟩
  · rw [hpend] at hp
    cases hp
    exact absurd rfl hne
  · cases he.symm.trans h
    exact .stay
  · simp [hpend] at hp
  · simp [hpend] at hp
  · cases he.symm.trans h
    exact .completeInit hres hpend hdone hcmd
  · cases he.symm.trans h
    exact .completeAbsorb hres hpend hdone hcmd
  · cases he.symm.trans h
    exact .completeFinalize hres hpend hdone hcmd

/-- A bus operation of a master that can move is one of the masters' turns. -/
theorem turn_of_performOp {s t : State} {k : Nat} {m : Master} {op : HostOp} {rest : List HostOp} {w u : Nat}
    (hm : m ∈ s.masters) (hop : m.program = op :: rest) (hfree : ∀ hw ∈ s.held, hw.master ≠ k)
    (h : performOp k m op rest { s with wait := w, turn := u } = .next t) : Turn s t := by
  rcases performOp_cases h with ⟨v, -, hres, rfl⟩ | ⟨v, rfl, hres, rfl⟩ | ⟨m', rfl, hvars⟩ | rfl | ⟨rfl, rfl⟩
    | ⟨rfl, hres, rfl⟩
  · exact .offer hm hfree hres
  · exact .storeDataIn hm hop hres
  · exact .goOn hm hvars
  · exact .stay
  · exact .assertReset hm hop
  · exact .releaseReset hm hop hres

/-- Every step that answers a next state is a `Turn`. -/
theorem turn_of_step {s t : State} (h : step s = .next t) : Turn s t := by
  rcases step_cases s with ⟨hw, rest, hres, hpend, hheld, he⟩ | ⟨p, hres, hpend, hdone, he⟩
    | ⟨p, hres, hpend, hdone, he⟩ | ⟨k, m, op, rest, w, u, hm, hop, hmove, -, -, he⟩ | ⟨-, he⟩
  · exact turn_of_acceptTurn hres hpend hheld (he.symm.trans h)
  · exact turn_of_completion hres hpend hdone (he.symm.trans h)
  · cases he.symm.trans h
    exact .internal hres hpend hdone
  · obtain ⟨-, -, -, -, -, hfree⟩ := canMove_spec hmove
    exact turn_of_performOp (List.mem_of_getElem? hm) hop hfree (he.symm.trans h)
  · cases he.symm.trans h
    exact .stay

/-! ### What the completions leave -/

/-- At DONE there is nothing left to run (R141). -/
theorem run_of_done {q : Sequencer} (h : q.phase = .done) : q.run = q := by
  simp [Sequencer.run, Sequencer.stepsLeft, h]

/-- A completed absorb leaves the message of the sequencer run to DONE (R31). -/
theorem commitAbsorb_message (s : State) : s.commitAbsorb.message = s.seq.run.message := rfl

@[simp] theorem commitAbsorb_life (s : State) : s.commitAbsorb.life = s.life := rfl
@[simp] theorem commitAbsorb_pending (s : State) : s.commitAbsorb.pending = none := rfl

@[simp] theorem commitInit_life (s : State) : s.commitInit.life = .active := rfl
@[simp] theorem commitInit_pending (s : State) : s.commitInit.pending = none := rfl

@[simp] theorem commitFinalize_life (s : State) : s.commitFinalize.life = .finalized := rfl
@[simp] theorem commitFinalize_pending (s : State) : s.commitFinalize.pending = none := rfl

/-! ### What the invariant says of a pending command -/

/-- What the invariant says of the slot and the sequencer while `p` is pending. -/
theorem slot_of_inv {s : State} {p : Pending} (h : s.Inv) (hpend : s.pending = some p) :
    p.wf = true ∧ p.legalIn s.life = true ∧ s.seq.fits p.cmd s.count = true := by
  obtain ⟨hslot, -⟩ := h
  simpa only [State.slotInv, hpend] using hslot

/-- INIT captures no bytes (R30). -/
theorem eq_of_cmd_init {p : Pending} (hwf : p.wf = true) (hcmd : p.cmd = .init) : p = ⟨.init, []⟩ := by
  obtain ⟨cmd, bytes⟩ := p
  subst hcmd
  simpa [Pending.wf] using hwf

/-- FINALIZE captures no bytes (R30). -/
theorem eq_of_cmd_finalize {p : Pending} (hwf : p.wf = true) (hcmd : p.cmd = .finalize) : p = ⟨.finalize, []⟩ := by
  obtain ⟨cmd, bytes⟩ := p
  subst hcmd
  simpa [Pending.wf] using hwf

/-- A pending command other than INIT is pending in ACTIVE (R62). -/
theorem active_of_pending {s : State} {p : Pending} (h : s.Inv) (hpend : s.pending = some p) (hcmd : p.cmd ≠ .init) :
    s.life = .active := by
  obtain ⟨-, hlegal, -⟩ := slot_of_inv h hpend
  simpa [Pending.legalIn, hcmd] using hlegal

/-- An absorbing command is not INIT. -/
theorem ne_init_of_absorb {i : Instr} (h : IsAbsorb i) : i ≠ .init := by
  rcases h with ⟨b, rfl⟩ | ⟨n, rfl⟩ <;> simp

/-- A pending absorb run to DONE has absorbed the captured bytes (R142). -/
theorem run_message_of_absorb {s : State} {p : Pending} (h : s.workInv) (hpend : s.pending = some p)
    (hcmd : IsAbsorb p.cmd) :
    s.seq.run.message = absorbAll s.message p.bytes := by
  rcases hcmd with ⟨b, hcmd⟩ | ⟨n, hcmd⟩ <;> simpa only [State.workInv, hpend, hcmd] using h

/-- A pending FINALIZE run to DONE has padded the message (R147). -/
theorem run_message_of_finalize {s : State} {p : Pending} (h : s.workInv) (hpend : s.pending = some p)
    (hcmd : p.cmd = .finalize) : s.seq.run.message = pad s.message := by
  simpa only [State.workInv, hpend, hcmd] using h

/-! ### Every step keeps the invariant -/

/-- Decoding gives commands that have an encoding only (R82). -/
theorem wf_of_decode {w : Word} {i : Instr} (h : decode w = .ok i) : i.wf = true := by
  unfold decode at h
  split_ifs at h <;> cases h
  · rfl
  · rfl
  · rfl
  · have := (nbField w).isLt
    simp only [Instr.wf, Bool.and_eq_true, decide_eq_true_eq]
    omega
  · rfl

/-- An accepted command is pending with the bytes it captures, and the sequencer is at its start (R62, R30). -/
theorem accept_slotInv {s : State} {i : Instr} (hwf : i.wf = true) (hnop : i ≠ .nop)
    (hlegal : i = .init ∨ s.life = .active) : (s.accept i).slotInv := by
  have hlegal' : Pending.legalIn ⟨i, capture i s.dataIn⟩ s.life = true := by simpa [Pending.legalIn] using hlegal
  cases i with
  | nop => exact absurd rfl hnop
  | init => exact ⟨rfl, hlegal', rfl⟩
  | absorbB b => exact ⟨by simp [Pending.wf], hlegal', rfl⟩
  | absorbW n =>
    have hn : 1 ≤ n ∧ n ≤ 4 := by simpa [Instr.wf] using hwf
    have hlen := captureBytes_length s.dataIn hn.2
    have hne : captureBytes n s.dataIn ≠ [] := by
      intro he
      rw [he, List.length_nil] at hlen
      omega
    exact ⟨by simp [Pending.wf, hwf, hlen], hlegal',
      by simp [Sequencer.fits, Sequencer.inAbsorb, Sequencer.start, hne, hlen, hn.2]⟩
  | finalize => exact ⟨rfl, hlegal', by simp [Sequencer.fits, Sequencer.inPadding, Sequencer.start]⟩

/-- An accepted command starts with its indices in range (R32). -/
theorem accept_cursorInv {s : State} (h : s.cursorInv) (i : Instr) : (s.accept i).cursorInv := by
  obtain ⟨ht, hp⟩ := h
  cases i with
  | finalize => exact ⟨ht, Nat.le_of_lt (fill_lt s.count)⟩
  | _ => exact ⟨ht, hp⟩

/-- The error record stays consistent when an error is raised (R182). -/
theorem usageError_recordInv {s : State} {c : Cause} (h : s.recordInv) (hc : c ≠ .none) (w : Word) :
    (s.usageError c w).recordInv := by
  obtain ⟨-, hset⟩ := h
  refine ⟨fun he => (by cases he), fun _ => ?_⟩
  by_cases herr : s.err = true
  · simpa [State.usageError, herr] using hset herr
  · simpa [State.usageError, herr] using hc

/-- Taking the oldest held write keeps one held write per master. -/
theorem nodup_of_held_cons {s : State} {hw : HeldWrite} {rest : List HeldWrite} (h : s.heldInv)
    (hheld : s.held = hw :: rest) : (rest.map HeldWrite.master).Nodup := by
  rw [State.heldInv, hheld] at h
  exact (List.nodup_cons.mp h).2

/-- A master without a held write may offer one (R62, R220). -/
theorem offer_heldInv {s : State} {k : Nat} (h : s.heldInv) (hfree : ∀ hw ∈ s.held, hw.master ≠ k) (v : Word) :
    (s.offer k v).heldInv := by
  have hk : k ∉ s.held.map HeldWrite.master := by
    intro hmem
    obtain ⟨hw, hhw, hmaster⟩ := List.mem_map.mp hmem
    exact hfree hw hhw hmaster
  simpa [State.heldInv, List.nodup_append] using ⟨h, fun hw hhw => hfree hw hhw⟩

/-- Assigning a variable brings in no number but its own. -/
theorem mem_setVar {vars : List (Nat × Word)} {n j : Nat} {x : Word} (h : j ∈ (setVar vars n x).map Prod.fst) :
    j = n ∨ j ∈ vars.map Prod.fst := by
  induction vars with
  | nil => simpa [setVar] using h
  | cons v vars ih =>
    obtain ⟨m, y⟩ := v
    rw [setVar] at h
    split_ifs at h with hlt heq
    · simpa using h
    · simp only [List.map_cons, List.mem_cons] at h ⊢
      tauto
    · simp only [List.map_cons, List.mem_cons] at h ⊢
      rcases h with h | h
      · exact .inr (.inl h)
      · exact (ih h).imp_right .inr

/-- Assigning a variable keeps the variables in rising order (log 15). -/
theorem setVar_sorted {vars : List (Nat × Word)} (h : (vars.map Prod.fst).Pairwise (· < ·)) (n : Nat) (x : Word) :
    ((setVar vars n x).map Prod.fst).Pairwise (· < ·) := by
  induction vars with
  | nil => simp [setVar]
  | cons v vars ih =>
    obtain ⟨m, y⟩ := v
    obtain ⟨hhead, htail⟩ := List.pairwise_cons.mp h
    rw [setVar]
    split_ifs with hlt heq
    · refine List.pairwise_cons.mpr ⟨fun j hj => ?_, h⟩
      rcases List.mem_cons.mp hj with rfl | hj
      · exact hlt
      · exact hlt.trans (hhead j hj)
    · subst heq
      exact h
    · refine List.pairwise_cons.mpr ⟨fun j hj => ?_, ih htail⟩
      rcases mem_setVar hj with rfl | hj
      · show m < j
        omega
      · exact hhead j hj

/-- A master that goes on keeps the variables of all masters in order. -/
theorem wf_of_mem_set {s : State} {k : Nat} {m m' : Master} {rest : List HostOp} (h : ∀ m ∈ s.masters, m.wf)
    (hm : m ∈ s.masters) (hvars : m'.vars = m.vars ∨ ∃ dst v, m'.vars = setVar m.vars dst v) :
    ∀ x ∈ s.masters.set k { m' with program := rest }, x.wf := by
  intro x hx
  rcases List.mem_or_eq_of_mem_set hx with hx | rfl
  · exact h x hx
  · show (m'.vars.map Prod.fst).Pairwise (· < ·)
    rcases hvars with hv | ⟨dst, v, hv⟩ <;> rw [hv]
    · exact h m hm
    · exact setVar_sorted (h m hm) dst v

/-- An internal step leads to the same DONE as before (R31, R141). -/
theorem run_step_of_inv {s : State} {p : Pending} (h : s.Inv) (hpend : s.pending = some p) :
    s.seq.step.run = s.seq.run := by
  obtain ⟨-, -, hfits⟩ := slot_of_inv h hpend
  obtain ⟨-, -, -, ⟨ht, -⟩, -⟩ := h
  exact run_step hfits ht

/-- What the invariant says of the internal copies depends on the sequencer's end only. -/
theorem workInv_of_run {s : State} {q : Sequencer} (h : s.workInv) (hrun : q.run = s.seq.run) :
    ({ s with seq := q } : State).workInv := by
  simpa only [State.workInv, State.message, hrun] using h

/-- An internal step keeps the invariant. -/
theorem inv_internal {s : State} {p : Pending} (h : s.Inv) (hpend : s.pending = some p) :
    (({ s with seq := s.seq.step } : State).drawWait).Inv := by
  obtain ⟨hwf, hlegal, hfits⟩ := slot_of_inv h hpend
  have hrun := run_step_of_inv h hpend
  obtain ⟨-, hrec, hidle, ⟨ht, hp⟩, hheld, hmast, hwork, hres⟩ := h
  refine ⟨?_, hrec, hidle, cursor_step hfits ht hp, hheld, hmast, workInv_of_run (s := s) hwork hrun, hres⟩
  simpa only [State.slotInv, drawWait_pending, hpend] using ⟨hwf, hlegal, fits_step hfits⟩

/-- An engine reset by the input has the invariant, at either level and whatever state it was in (R210). -/
theorem inv_resetEngine {s : State} (h : ∀ m ∈ s.masters, m.wf) (level : Bool) : (s.resetEngine level).Inv :=
  ⟨rfl, ⟨fun _ => ⟨rfl, rfl⟩, fun he => (by cases he)⟩, fun _ => rfl, ⟨Nat.zero_le _, Nat.zero_le _⟩, List.nodup_nil, h,
    trivial, fun _ => ⟨rfl, rfl, rfl, rfl, rfl, rfl, rfl, rfl⟩⟩

/-- With the reset input released `resetInv` says nothing. -/
theorem resetInv_of_released {s : State} (h : s.inReset = false) : s.resetInv := fun hr => by simp [h] at hr

/-- At DONE the run that a completion begins with leaves the indices in range (R32). -/
theorem cursor_of_done {s : State} (h : s.cursorInv) (hdone : s.seq.phase = .done) :
    s.seq.run.t ≤ 63 ∧ s.seq.run.p ≤ 64 := by
  rw [run_of_done hdone]
  exact h

/-- Every turn keeps the invariant. -/
theorem inv_of_turn {s t : State} (h : s.Inv) (ht : Turn s t) : t.Inv := by
  have hinv := h
  obtain ⟨hslot, hrec, hidle, hcur, hheldInv, hmast, hwork, hreset⟩ := h
  cases ht with
  | acceptNop hres hpend hheld =>
    exact ⟨hslot, hrec, hidle, hcur, nodup_of_held_cons hheldInv hheld, hmast, hwork, resetInv_of_released hres⟩
  | accept hres hpend hheld hdec hnop hlegal =>
    have hwf := wf_of_decode hdec
    exact ⟨accept_slotInv hwf hnop hlegal, hrec, hidle, accept_cursorInv hcur _, nodup_of_held_cons hheldInv hheld,
      hmast, accept_workInv hwf _, resetInv_of_released hres⟩
  | refuse hres hpend hheld hc =>
    exact ⟨hslot, usageError_recordInv hrec hc _, hidle, hcur, nodup_of_held_cons hheldInv hheld, hmast, hwork,
      resetInv_of_released hres⟩
  | internal hres hpend hdone => exact inv_internal hinv hpend
  | completeInit hres hpend hdone hcmd =>
    exact ⟨rfl, ⟨fun _ => ⟨rfl, rfl⟩, fun he => (by cases he)⟩, fun hl => (by cases hl), cursor_of_done hcur hdone,
      hheldInv, hmast, trivial, resetInv_of_released hres⟩
  | completeAbsorb hres hpend hdone hcmd =>
    have hactive := active_of_pending hinv hpend (ne_init_of_absorb hcmd)
    exact ⟨rfl, hrec, fun hl => (by cases hactive.symm.trans hl), cursor_of_done hcur hdone, hheldInv, hmast, trivial,
      resetInv_of_released hres⟩
  | completeFinalize hres hpend hdone hcmd =>
    exact ⟨rfl, hrec, fun hl => (by cases hl), cursor_of_done hcur hdone, hheldInv, hmast, trivial,
      resetInv_of_released hres⟩
  | offer hm hfree hres =>
    exact ⟨hslot, hrec, hidle, hcur, offer_heldInv hheldInv hfree _, wf_of_mem_set hmast hm (.inl rfl), hwork,
      resetInv_of_released hres⟩
  | storeDataIn hm hop hres =>
    exact ⟨hslot, hrec, hidle, hcur, hheldInv, wf_of_mem_set hmast hm (.inl rfl), hwork, resetInv_of_released hres⟩
  | goOn hm hvars => exact ⟨hslot, hrec, hidle, hcur, hheldInv, wf_of_mem_set hmast hm hvars, hwork, hreset⟩
  | assertReset hm hop => exact inv_resetEngine (wf_of_mem_set hmast hm (.inl rfl)) true
  | releaseReset hm hop hres => exact inv_resetEngine (wf_of_mem_set hmast hm (.inl rfl)) false
  | stay => exact ⟨hslot, hrec, hidle, hcur, hheldInv, hmast, hwork, hreset⟩

/-- Settles O22: every turn keeps each part of the invariant. -/
theorem everyStepKeepsTheInvariant : Obligations.EveryStepKeepsTheInvariant :=
  fun _ _ hinv hstep => inv_of_turn hinv (turn_of_step hstep)

/-! ### Every step keeps the message -/

/-- A step that completes nothing and leaves LIFE leaves the message bytes. -/
theorem messageAfter_of_not_completed {s t : State} {bytes : List Byte} (h : s.holdsMessage bytes)
    (hlife : t.life = s.life) (hpend : s.pending = none ∨ t.pending ≠ none) : messageAfter s t bytes = bytes := by
  obtain ⟨-, hidle, -⟩ := h
  unfold messageAfter
  split_ifs with hi
  · exact (hidle (hlife.symm.trans hi)).symm
  · rcases hpend with hpend | hpend
    · simp [hpend]
    · obtain ⟨p, hp⟩ := Option.ne_none_iff_exists'.mp hpend
      cases hs : s.pending <;> simp [hp]

/-- A step that leaves H, count, the buffer, LIFE and the slot keeps the message. -/
theorem holdsMessage_of_frame {s t : State} {bytes : List Byte} (h : s.holdsMessage bytes) (hh : t.h = s.h)
    (hc : t.count = s.count) (hb : t.buf = s.buf) (hl : t.life = s.life) (hpend : s.pending = none ∨ t.pending ≠ none) :
    t.holdsMessage (messageAfter s t bytes) := by
  rw [messageAfter_of_not_completed h hl hpend]
  exact holdsMessage_of_eq h hh hc hb hl

/-- In ACTIVE a state holds the message that its committed values hash (R36). -/
theorem holdsMessage_of_active {s : State} {bytes : List Byte} (hl : s.life = .active) (h : s.message.hashes bytes) :
    s.holdsMessage bytes := by
  obtain ⟨hc, hh, hb⟩ := h
  exact ⟨hc, fun hi => (by simp [hl] at hi), fun _ => ⟨hh, hb⟩, fun hf => (by simp [hl] at hf)⟩

/-- A completed INIT begins an empty message (R156). -/
theorem holdsMessage_commitInit {s : State} {p : Pending} (hpend : s.pending = some p) (hcmd : p.cmd = .init)
    (bytes : List Byte) : s.commitInit.holdsMessage (messageAfter s s.commitInit bytes) := by
  have hafter : messageAfter s s.commitInit bytes = [] := by simp [messageAfter, hpend, hcmd]
  rw [hafter]
  exact holdsMessage_of_active rfl (hashes_nil s.buf)

/-- A completed absorb appends its bytes to the message (R142). -/
theorem holdsMessage_commitAbsorb {s : State} {p : Pending} {bytes : List Byte} (hinv : s.Inv)
    (h : s.holdsMessage bytes) (hpend : s.pending = some p)
    (hcmd : IsAbsorb p.cmd) :
    s.commitAbsorb.holdsMessage (messageAfter s s.commitAbsorb bytes) := by
  have hactive := active_of_pending hinv hpend (ne_init_of_absorb hcmd)
  obtain ⟨-, -, -, -, -, -, hwork, -⟩ := hinv
  have hafter : messageAfter s s.commitAbsorb bytes = bytes ++ p.bytes := by
    rcases hcmd with ⟨b, hcmd⟩ | ⟨n, hcmd⟩ <;> simp [messageAfter, hactive, hpend, hcmd]
  rw [hafter]
  refine holdsMessage_of_active hactive ?_
  rw [commitAbsorb_message, run_message_of_absorb hwork hpend hcmd]
  exact hashes_absorbAll (message_hashes h hactive) p.bytes

/-- A completed FINALIZE leaves the digest of the message (R161). -/
theorem holdsMessage_commitFinalize {s : State} {p : Pending} {bytes : List Byte} (hinv : s.Inv)
    (h : s.holdsMessage bytes) (hpend : s.pending = some p) (hcmd : p.cmd = .finalize) :
    s.commitFinalize.holdsMessage (messageAfter s s.commitFinalize bytes) := by
  have hactive := active_of_pending hinv hpend (by simp [hcmd])
  obtain ⟨-, -, -, -, -, -, hwork, -⟩ := hinv
  have hafter : messageAfter s s.commitFinalize bytes = bytes := by simp [messageAfter, hpend, hcmd]
  have hdigest : s.commitFinalize.h = sha256 bytes := by
    calc s.commitFinalize.h = s.seq.run.message.h := rfl
      _ = (pad s.message).h := by rw [run_message_of_finalize hwork hpend hcmd]
      _ = sha256 bytes := pad_h_of_hashes (message_hashes h hactive)
  rw [hafter]
  exact ⟨h.1, fun hl => (by cases hl), fun hl => (by cases hl), fun _ _ => hdigest⟩

/-- A reset begins an empty message (R35). -/
theorem holdsMessage_resetEngine (s s' : State) (level : Bool) (bytes : List Byte) :
    (s'.resetEngine level).holdsMessage (messageAfter s (s'.resetEngine level) bytes) := by
  have hafter : messageAfter s (s'.resetEngine level) bytes = [] := by simp [messageAfter]
  rw [hafter]
  exact ⟨rfl, fun _ => rfl, fun hl => (by cases hl), fun hl => (by cases hl)⟩

/-- Every turn keeps the message. -/
theorem holdsMessage_of_turn {s t : State} {bytes : List Byte} (hinv : s.Inv) (h : s.holdsMessage bytes)
    (ht : Turn s t) : t.holdsMessage (messageAfter s t bytes) := by
  cases ht with
  | acceptNop _ hpend _ => exact holdsMessage_of_frame h rfl rfl rfl rfl (.inl hpend)
  | accept _ hpend _ _ _ _ => exact holdsMessage_of_frame h rfl rfl rfl rfl (.inl hpend)
  | refuse _ hpend _ _ => exact holdsMessage_of_frame h rfl rfl rfl rfl (.inl hpend)
  | internal _ hpend _ => exact holdsMessage_of_frame h rfl rfl rfl rfl (eq_or_ne s.pending none)
  | completeInit _ hpend _ hcmd => exact holdsMessage_commitInit hpend hcmd bytes
  | completeAbsorb _ hpend _ hcmd => exact holdsMessage_commitAbsorb hinv h hpend hcmd
  | completeFinalize _ hpend _ hcmd => exact holdsMessage_commitFinalize hinv h hpend hcmd
  | offer _ _ _ => exact holdsMessage_of_frame h rfl rfl rfl rfl (eq_or_ne s.pending none)
  | storeDataIn _ _ _ => exact holdsMessage_of_frame h rfl rfl rfl rfl (eq_or_ne s.pending none)
  | goOn _ _ => exact holdsMessage_of_frame h rfl rfl rfl rfl (eq_or_ne s.pending none)
  | assertReset _ _ => exact holdsMessage_resetEngine s _ true bytes
  | releaseReset _ _ _ => exact holdsMessage_resetEngine s _ false bytes
  | stay => exact holdsMessage_of_frame h rfl rfl rfl rfl (eq_or_ne s.pending none)

/-- Settles O56: an absorb appends its bytes, INIT and a reset begin an empty message, FINALIZE turns H into its digest,
and every other turn leaves what a message depends on. -/
theorem everyStepKeepsTheMessage : Obligations.EveryStepKeepsTheMessage :=
  fun _ _ _ hinv h hstep => holdsMessage_of_turn hinv h (turn_of_step hstep)

/-! ### Who changes LIFE, the digest and the registers -/

/-- While the reset input is asserted LIFE is IDLE (R210). -/
theorem idle_of_inReset {s : State} (h : s.Inv) (hres : s.inReset = true) : s.life = .idle := by
  obtain ⟨-, -, -, -, -, -, -, hreset⟩ := h
  obtain ⟨hlife, -⟩ := hreset hres
  exact hlife

/-- Settles O23: LIFE is written by two completions and by the assertion of reset; a release finds it IDLE already. -/
theorem lifecycleChangesOnlyAsTheTableSays : Obligations.LifecycleChangesOnlyAsTheTableSays := by
  intro s t hinv hstep hlife
  cases turn_of_step hstep with
  | completeInit _ hpend hdone hcmd =>
    obtain ⟨hwf, -⟩ := slot_of_inv hinv hpend
    exact .inl ⟨hpend.trans (congrArg some (eq_of_cmd_init hwf hcmd)), hdone, rfl, rfl⟩
  | completeFinalize _ hpend hdone hcmd =>
    obtain ⟨hwf, -⟩ := slot_of_inv hinv hpend
    exact .inr (.inl ⟨hpend.trans (congrArg some (eq_of_cmd_finalize hwf hcmd)), hdone,
      active_of_pending hinv hpend (by simp [hcmd]), rfl, rfl⟩)
  | assertReset hm hop => exact .inr (.inr ⟨rfl, rfl, _, hm, _, hop⟩)
  | releaseReset _ _ hres => exact absurd (idle_of_inReset hinv hres).symm hlife
  | _ => exact absurd rfl hlife

/-- Settles O25: in FINALIZED only INIT can be pending, and only it and reset write H or count. -/
theorem finalizedDigestAndCountAreFrozen : Obligations.FinalizedDigestAndCountAreFrozen := by
  intro s t hinv hfin hstep
  have notActive : s.life ≠ .active := by simp [hfin]
  cases turn_of_step hstep with
  | completeInit _ hpend hdone hcmd =>
    obtain ⟨hwf, -⟩ := slot_of_inv hinv hpend
    exact .inr (.inl ⟨hpend.trans (congrArg some (eq_of_cmd_init hwf hcmd)), hdone, rfl⟩)
  | completeAbsorb _ hpend _ hcmd => exact absurd (active_of_pending hinv hpend (ne_init_of_absorb hcmd)) notActive
  | completeFinalize _ hpend _ hcmd => exact absurd (active_of_pending hinv hpend (by simp [hcmd])) notActive
  | assertReset hm hop => exact .inr (.inr ⟨rfl, _, hm, _, hop⟩)
  | releaseReset _ _ hres => exact absurd (hfin.symm.trans (idle_of_inReset hinv hres)) (by decide)
  | _ => exact .inl ⟨rfl, rfl⟩

/-- Settles O26: only the completions, a held write's refusal and a master's store write a register, when no master is
about to change the reset input. -/
theorem eachRegisterChangesOnlyByItsWriters : Obligations.EachRegisterChangesOnlyByItsWriters := by
  intro s t hstep hno
  have errFixed {P : Prop} (hset : s.err = true) (hclear : s.err = false) : P := by simp [hset] at hclear
  cases turn_of_step hstep with
  | refuse _ hpend hheld _ =>
    exact ⟨absurd rfl, absurd rfl, absurd rfl, absurd rfl, fun _ _ => ⟨hpend, by simp [hheld]⟩, fun he => (by cases he)⟩
  | completeInit _ hpend hdone hcmd =>
    exact ⟨fun _ => ⟨_, hpend, hdone, rfl⟩, fun _ => ⟨_, hpend, hdone, rfl, .inl hcmd⟩, absurd rfl, absurd rfl,
      fun he => (by cases he), fun _ _ => ⟨_, hpend, hdone, hcmd⟩⟩
  | completeAbsorb _ hpend hdone hcmd =>
    exact ⟨fun _ => ⟨_, hpend, hdone, rfl⟩, fun _ => ⟨_, hpend, hdone, rfl, .inr hcmd⟩,
      fun _ => ⟨_, hpend, hdone, rfl, .inr hcmd⟩, absurd rfl, errFixed, fun hclear hset => errFixed hset hclear⟩
  | completeFinalize _ hpend hdone hcmd =>
    exact ⟨fun _ => ⟨_, hpend, hdone, rfl⟩, absurd rfl, fun _ => ⟨_, hpend, hdone, rfl, .inl hcmd⟩, absurd rfl,
      errFixed, fun hclear hset => errFixed hset hclear⟩
  | storeDataIn hm hop _ =>
    exact ⟨absurd rfl, absurd rfl, absurd rfl, fun _ => ⟨_, hm, _, hop⟩, errFixed,
      fun hclear hset => errFixed hset hclear⟩
  | assertReset hm hop => exact absurd hop (hno _ hm _).1
  | releaseReset hm hop _ => exact absurd hop (hno _ hm _).2
  | _ =>
    exact ⟨absurd rfl, absurd rfl, absurd rfl, absurd rfl, errFixed, fun hclear hset => errFixed hset hclear⟩

/-- A store to DATA_IN shows in its own register only (R51, R54). -/
theorem readReg_storeDataIn (s : State) (v : Word) {r : Reg} (hr : r ≠ .dataIn) :
    ({ s with dataIn := v } : State).readReg r = s.readReg r := by
  cases r with
  | dataIn => exact absurd rfl hr
  | _ => rfl

/-- Settles O27: while the slot keeps its command only the sequencer and the masters move. -/
theorem committedStateIsFixedWhilePending : Obligations.CommittedStateIsFixedWhilePending := by
  intro s t p hpend hstep hpend'
  cases turn_of_step hstep with
  | acceptNop _ hnone _ => cases hnone.symm.trans hpend
  | accept _ hnone _ _ _ _ => cases hnone.symm.trans hpend
  | refuse _ hnone _ _ => cases hnone.symm.trans hpend
  | completeInit _ _ _ _ => cases hpend'
  | completeAbsorb _ _ _ _ => cases hpend'
  | completeFinalize _ _ _ _ => cases hpend'
  | assertReset _ _ => cases hpend'
  | releaseReset _ _ _ => cases hpend'
  | storeDataIn hm hop _ =>
    exact ⟨rfl, rfl, rfl, rfl, rfl, rfl, rfl, fun _ hr => readReg_storeDataIn s _ hr, .inr ⟨_, hm, _, hop⟩⟩
  | _ => exact ⟨rfl, rfl, rfl, rfl, rfl, rfl, rfl, fun _ _ => rfl, .inl rfl⟩

/-! ### Acceptance and completion by `exec` -/

/-- With nothing pending a legal command becomes pending (R62). -/
theorem exec_of_legal {s : State} {i : Instr} (hpend : s.pending = none) (hnop : i ≠ .nop)
    (hlegal : i = .init ∨ s.life = .active) : exec i s = .next (s.accept i) := by
  rcases exec_cases i s with ⟨p, hp, -⟩ | ⟨hi, -⟩ | ⟨-, -, -, he⟩ | ⟨-, -, hinit, hlife, -⟩ | ⟨p, hp, -⟩ | ⟨p, hp, -⟩
    | ⟨p, hp, -⟩
  · simp [hpend] at hp
  · exact absurd hi hnop
  · exact he
  · exact absurd hlegal (by simp [hinit, hlife])
  all_goals simp [hpend] at hp

/-- A pending INIT completes (R156). -/
theorem exec_pending_init {s : State} {p : Pending} (hpend : s.pending = some p) (hcmd : p.cmd = .init) :
    exec .init s = .next s.commitInit := by
  simp [exec, execInit, State.atMoment, hpend, hcmd]

/-- A pending absorb completes (R157, R158). -/
theorem exec_pending_absorb {s : State} {p : Pending} (hpend : s.pending = some p)
    (hcmd : IsAbsorb p.cmd) : exec p.cmd s = .next s.commitAbsorb := by
  rcases hcmd with ⟨b, hcmd⟩ | ⟨n, hcmd⟩
  · simp [exec, execAbsorbB, State.atMoment, hpend, hcmd]
  · simp [exec, execAbsorbW, State.atMoment, hpend, hcmd]

/-- A pending FINALIZE completes (R159). -/
theorem exec_pending_finalize {s : State} {p : Pending} (hpend : s.pending = some p) (hcmd : p.cmd = .finalize) :
    exec .finalize s = .next s.commitFinalize := by
  simp [exec, execFinalize, State.atMoment, hpend, hcmd]

/-- The completions run the sequencer to DONE first, so they depend on its end only. -/
theorem runSequencer_congr {s : State} {q : Sequencer} (hrun : q.run = s.seq.run) :
    ({ s with seq := q } : State).runSequencer = s.runSequencer := by
  simp only [State.runSequencer, hrun]

/-- Settles O30: an internal step leads to the same DONE, and every completion starts there. -/
theorem sequencerStepsDoNotChangeTheCompletion : Obligations.SequencerStepsDoNotChangeTheCompletion := by
  intro s p hinv hpend
  have hseq := runSequencer_congr (run_step_of_inv hinv hpend)
  have hpend' : ({ s with seq := s.seq.step } : State).pending = some p := hpend
  have absorb (hcmd : IsAbsorb p.cmd) :
      exec p.cmd { s with seq := s.seq.step } = exec p.cmd s := by
    rw [exec_pending_absorb hpend hcmd, exec_pending_absorb hpend' hcmd, State.commitAbsorb, hseq, State.commitAbsorb]
  cases hcmd : p.cmd with
  | nop =>
    obtain ⟨hwf, -⟩ := slot_of_inv hinv hpend
    simp [Pending.wf, hcmd] at hwf
  | init =>
    rw [exec_pending_init hpend hcmd, exec_pending_init hpend' hcmd, State.commitInit, hseq, State.commitInit]
  | absorbB b => exact hcmd ▸ absorb (.inl ⟨b, hcmd⟩)
  | absorbW n => exact hcmd ▸ absorb (.inr ⟨n, hcmd⟩)
  | finalize =>
    rw [exec_pending_finalize hpend hcmd, exec_pending_finalize hpend' hcmd, State.commitFinalize, hseq,
      State.commitFinalize]

/-! ### Commands run whole -/

/-- A run whose acceptance makes the command pending ends with what its completion gives (R140). -/
theorem runCommand_of_accept {s : State} {i : Instr} (h : exec i s = .next (s.accept i)) :
    runCommand i s = exec i (s.accept i) := by
  simp [runCommand, h, State.busy]

/-- INIT run whole leaves an empty message in ACTIVE (R156). -/
theorem runCommand_init {s : State} (hpend : s.pending = none) :
    ∃ t, runCommand .init s = .next t ∧ t.life = .active ∧ t.pending = none ∧ t.message.hashes [] := by
  have hrun := runCommand_of_accept (exec_of_legal hpend (by decide) (.inl rfl))
  rw [exec_pending_init (accept_pending s .init) rfl] at hrun
  exact ⟨_, hrun, rfl, rfl, hashes_nil s.buf⟩

/-- An absorb run whole in ACTIVE appends the bytes it captures to the message (R142). -/
theorem runCommand_absorb {s : State} {i : Instr} {bytes : List Byte} (hwf : i.wf = true)
    (hi : IsAbsorb i) (hlife : s.life = .active) (hpend : s.pending = none)
    (h : s.message.hashes bytes) :
    ∃ t, runCommand i s = .next t ∧ t.life = .active ∧ t.pending = none
      ∧ t.message.hashes (bytes ++ capture i s.dataIn) := by
  have hnop : i ≠ .nop := by rcases hi with ⟨b, rfl⟩ | ⟨n, rfl⟩ <;> simp
  have hrun := runCommand_of_accept (exec_of_legal hpend hnop (.inr hlife))
  have hpend' := accept_pending s i
  refine ⟨(s.accept i).commitAbsorb, hrun.trans (exec_pending_absorb hpend' hi), hlife, rfl, ?_⟩
  rw [commitAbsorb_message, run_message_of_absorb (accept_workInv hwf s) hpend' hi]
  exact hashes_absorbAll h (capture i s.dataIn)

/-- A chunk run in ACTIVE appends its bytes to the message (R145). -/
theorem chunk_run {s : State} {c : Chunk} {bytes : List Byte} (hwf : c.wf = true) (hlife : s.life = .active)
    (hpend : s.pending = none) (h : s.message.hashes bytes) :
    ∃ t, c.run s = .next t ∧ t.life = .active ∧ t.pending = none ∧ t.message.hashes (bytes ++ c.bytes) := by
  cases c with
  | byte b => exact runCommand_absorb rfl (.inl ⟨b, rfl⟩) hlife hpend h
  | word n v =>
    exact runCommand_absorb (s := { s with dataIn := v }) (i := .absorbW n) hwf (.inr ⟨n, rfl⟩) hlife hpend h

/-- Chunks run in ACTIVE append their bytes to the message, in order (R145). -/
theorem runChunks_hashes {cs : List Chunk} {s : State} {bytes : List Byte} (hwf : ∀ c ∈ cs, c.wf = true)
    (hlife : s.life = .active) (hpend : s.pending = none) (h : s.message.hashes bytes) :
    ∃ t, runChunks cs s = .next t ∧ t.life = .active ∧ t.pending = none
      ∧ t.message.hashes (bytes ++ cs.flatMap Chunk.bytes) := by
  induction cs generalizing s bytes with
  | nil => exact ⟨s, rfl, hlife, hpend, by simpa using h⟩
  | cons c cs ih =>
    obtain ⟨hc, hcs⟩ := List.forall_mem_cons.mp hwf
    obtain ⟨t, hrun, hlife', hpend', ht⟩ := chunk_run hc hlife hpend h
    obtain ⟨u, hrun', hlife'', hpend'', hu⟩ := ih hcs hlife' hpend' ht
    exact ⟨u, by simpa [runChunks, Result.andThen, hrun] using hrun', hlife'', hpend'', by simpa using hu⟩

/-- Settles O55: INIT empties the message, each chunk appends its bytes, and the last of them are live in the buffer. -/
theorem liveBufferBytesAreTheLastMessageBytes : Obligations.LiveBufferBytesAreTheLastMessageBytes := by
  intro s cs bytes hpend hwf hbytes
  obtain ⟨t, hrun, hlife, hpend', ht⟩ := runCommand_init hpend
  obtain ⟨u, hrun', hlife', hpend'', hcount, -, hbuf⟩ := runChunks_hashes hwf hlife hpend' ht
  rw [List.nil_append, hbytes] at hcount hbuf
  exact ⟨u, by rw [hrun]; exact hrun', hlife', hpend'', hcount, hbuf⟩

/-! ### The state after reset -/

/-- Settles O21: the engine has its reset values, and no master has a variable yet. -/
theorem invariantHoldsAfterReset : Obligations.InvariantHoldsAfterReset := by
  intro programs
  refine inv_resetEngine (s := State.afterReset (programs.map fun p => ⟨p, []⟩)) (fun m hm => ?_) false
  obtain ⟨p, -, rfl⟩ := List.mem_map.mp hm
  exact List.Pairwise.nil

/-- Settles O51: each field that a register shows is 0, and outside FINALIZED so are the digest registers. -/
theorem allRegistersReadZeroAfterReset : Obligations.AllRegistersReadZeroAfterReset := by
  intro masters r
  cases r with
  | status =>
    show State.reset.status = 0#32
    decide
  | countHi =>
    show (0#64 >>> 32).setWidth 32 = 0#32
    decide
  | _ => rfl

/-- Settles O57: after reset count is 0 and LIFE is IDLE. -/
theorem noMessageAfterReset : Obligations.NoMessageAfterReset :=
  fun _ => ⟨rfl, fun _ => rfl, fun hl => (by cases hl), fun hl => (by cases hl)⟩

end Sys2Proof.Machine
end

section
/-! SUPPORT and PROOFS. The statements on the register window and the bus masters (spec/20_memory.md): which register an
access reaches, what a bus operation makes of the state, whose turn a step is, and what each register shows. -/
namespace Sys2Proof.Machine

/-! ### The register map and the window's addresses -/

/-- Only a 32-bit access at a multiple of 4 reaches a register (R52). -/
theorem regAt_eq_none {off : BitVec 6} {width : Nat} (h : width ≠ 4 ∨ off.toNat % 4 ≠ 0) : regAt off width = none :=
  if_neg fun hc => h.elim (absurd hc.1) (absurd hc.2)

/-- Every 32-bit access at a multiple of 4 reaches a register (R52). -/
theorem regAt_aligned {off : BitVec 6} (h : off.toNat % 4 = 0) : regAt off 4 = some (regAtWord (off.toNat / 4)) :=
  if_pos ⟨rfl, h⟩

/-- A read at a register's own offset returns that register (R51). -/
theorem read_at_offset (s : State) (r : Reg) : (regAt r.offset 4).map s.readReg = some (s.readReg r) := by
  rw [regAt_offset]
  rfl

theorem windowOffset_eq_none {addr : Nat} :
    windowOffset addr = none ↔ addr < Config.engineBase ∨ Config.engineBase + 64 ≤ addr := by
  unfold windowOffset
  simp only [ite_eq_right_iff, reduceCtorEq, imp_false]
  omega

theorem windowOffset_add (off : BitVec 6) : windowOffset (Config.engineBase + off.toNat) = some off := by
  have hlt := off.isLt
  simp [windowOffset, hlt]

/-- Settles O54: the base is 64 times the free constant, and an offset is the distance from it. -/
theorem windowIsTheSixtyFourBytesAtTheBase : Obligations.WindowIsTheSixtyFourBytesAtTheBase :=
  ⟨Nat.mul_mod_right 64 _, windowOffset_add, fun _ => windowOffset_eq_none⟩

/-! ### What a bus operation makes of the state -/

section
variable (k : Nat) (m : Master) (rest : List HostOp) (s : State) {off : BitVec 6} {width : Nat} {r : Reg}

theorem performOp_write (h : regAt off width = some r) (v : Word) :
    performOp k m (.write off width v) rest s = .next ((s.continueMaster k m rest).writeReg k r v) := by
  simp [performOp, h]

theorem performOp_read (h : regAt off width = some r) (dst : Nat) :
    performOp k m (.read off width dst) rest s
      = .next (s.continueMaster k { m with vars := setVar m.vars dst (s.readReg r) } rest) := by
  simp [performOp, h]

theorem performOp_poll (h : regAt off 4 = some r) (mask v : Word) :
    performOp k m (.poll off mask v) rest s
      = .next (if s.readReg r &&& mask = v then s.continueMaster k m rest else s) := by
  simp [performOp, h]

theorem performOp_write_fault (h : regAt off width = none) (v : Word) :
    performOp k m (.write off width v) rest s = .fault (.busError off width) := by
  simp [performOp, h]

theorem performOp_read_fault (h : regAt off width = none) (dst : Nat) :
    performOp k m (.read off width dst) rest s = .fault (.busError off width) := by
  simp [performOp, h]

end

/-- CMD offers the written word (R62). -/
theorem writeReg_cmd {s : State} (h : s.inReset = false) (k : Nat) (v : Word) : s.writeReg k .cmd v = s.offer k v := by
  simp [State.writeReg, h]

/-- DATA_IN stores the written word (R54). -/
theorem writeReg_dataIn {s : State} (h : s.inReset = false) (k : Nat) (v : Word) :
    s.writeReg k .dataIn v = { s with dataIn := v } := by
  simp [State.writeReg, h]

/-- Every register but CMD and DATA_IN ignores a write (R60). -/
theorem writeReg_ignored (s : State) (k : Nat) (v : Word) {r : Reg} (hcmd : r ≠ .cmd) (hdata : r ≠ .dataIn) :
    s.writeReg k r v = s := by
  unfold State.writeReg
  split
  · rfl
  · cases r with
    | cmd => exact absurd rfl hcmd
    | dataIn => exact absurd rfl hdata
    | _ => rfl

/-- Settles O48: an access is answered exactly when it reaches a register. -/
theorem onlyAlignedWordAccessesAreAnswered : Obligations.OnlyAlignedWordAccessesAreAnswered := by
  intro s k m rest off width dst v
  constructor
  · intro hbad
    have hnone := regAt_eq_none hbad
    exact ⟨performOp_write_fault k m rest s hnone v, performOp_read_fault k m rest s hnone dst⟩
  · rintro rfl hal
    have hsome := regAt_aligned hal
    exact ⟨⟨_, performOp_write k m rest s hsome v⟩, ⟨_, performOp_read k m rest s hsome dst⟩⟩

/-- Settles O49: the write completes and does to its register what `writeReg` does, which is nothing outside CMD and
DATA_IN and nothing under reset. -/
theorem writesReachCmdAndDataInOnly : Obligations.WritesReachCmdAndDataInOnly := by
  intro s k m rest v
  refine ⟨fun hres => ?_, fun hres => ?_, fun off hal hcase => ?_⟩
  · exact (performOp_write k m rest s (regAt_offset .cmd) v).trans
      (congrArg _ (writeReg_cmd (s := s.continueMaster k m rest) hres k v))
  · exact (performOp_write k m rest s (regAt_offset .dataIn) v).trans
      (congrArg _ (writeReg_dataIn (s := s.continueMaster k m rest) hres k v))
  · have hreg := regAt_aligned hal
    have hoff := offset_of_regAt hreg
    refine (performOp_write k m rest s hreg v).trans (congrArg _ ?_)
    rcases hcase with hres | ⟨hcmd, hdata⟩
    · exact writeReg_of_inReset (s := s.continueMaster k m rest) hres k _ v
    · exact writeReg_ignored (s.continueMaster k m rest) k v (fun h => hcmd (hoff.trans (congrArg Reg.offset h)))
        fun h => hdata (hoff.trans (congrArg Reg.offset h))

/-- Settles O50: a read changes its master's variable only, and a poll only whether its master goes on. -/
theorem readsChangeNothingOfTheEngine : Obligations.ReadsChangeNothingOfTheEngine := by
  intro s k m rest off r hreg
  refine ⟨fun dst => performOp_read k m rest s hreg dst, fun mask v hmet => ?_, fun mask v hunmet => ?_⟩
  · rw [performOp_poll k m rest s hreg, if_pos hmet]
    rfl
  · rw [performOp_poll k m rest s hreg, if_neg hunmet]

/-! ### Whose turn a step is -/

/-- With nothing pending the oldest held write is taken (R62, R222). -/
theorem step_of_held {s : State} {hw : HeldWrite} {rest : List HeldWrite} (hres : s.inReset = false)
    (hpend : s.pending = none) (hheld : s.held = hw :: rest) :
    step s = acceptTurn hw.word { s with held := rest } := by
  simp [step, nextTurn, hres, hpend, hheld]

/-- A word that decodes to a command is accepted as `exec` says (R62). -/
theorem acceptTurn_of_decode {w : Word} {i : Instr} (h : decode w = .ok i) (s : State) :
    acceptTurn w s = exec i s.drawWait := by
  simp [acceptTurn, h]

/-- Under reset, and with nothing pending or held, only the masters move (R210). -/
theorem step_eq_hostTurn {s : State} (h : s.inReset = true ∨ (s.pending = none ∧ s.held = [])) :
    step s = hostTurn s := by
  unfold step nextTurn
  split
  · rfl
  · rename_i hres
    obtain ⟨hpend, hheld⟩ := h.resolve_left hres
    simp [hpend, hheld]

/-- With a command pending and host turns left, a master that can move does (R66; log 4). -/
theorem step_eq_hostTurn_of_pending {s : State} {p : Pending} (hres : s.inReset = false) (hpend : s.pending = some p)
    (hwait : s.wait ≠ 0) (hready : s.readyMasters ≠ []) : step s = hostTurn { s with wait := s.wait - 1 } := by
  simp [step, nextTurn, hres, hpend, hwait, hready]

/-- A host turn is one operation of one master that can move, when there is one (R72). -/
theorem hostTurn_of_ready {s : State} (h : s.readyMasters ≠ []) :
    ∃ k ∈ s.readyMasters, ∃ u, hostTurn s = masterTurn k { s with turn := u } := by
  rcases hostTurn_cases s with ⟨hnone, -⟩ | ⟨k, u, hk, he⟩
  · exact absurd hnone h
  · exact ⟨k, hk, u, he⟩

/-- Settles O16: the step takes the held write, and the acceptance draws the free number of host turns. -/
theorem stepRunsTheOfferedCommand : Obligations.StepRunsTheOfferedCommand := by
  intro s k w i rest hres hpend hheld hdec
  rw [step_of_held hres hpend hheld, acceptTurn_of_decode hdec]
  rfl

/-- Settles O18: in both cases the step is a host turn; the counters `wait` and `turn` do not change who can move. -/
theorem oneReadyMasterMovesAtAHostTurn : Obligations.OneReadyMasterMovesAtAHostTurn := by
  constructor
  · intro s hcase hready
    rw [step_eq_hostTurn hcase]
    exact hostTurn_of_ready hready
  · intro s p hres hpend hwait hready
    rw [step_eq_hostTurn_of_pending hres hpend hwait hready]
    exact hostTurn_of_ready (s := { s with wait := s.wait - 1 }) hready

/-! ### What the registers show -/

/-- FILL has six bits (R23). -/
theorem fill_testBit_of_le (c : Count) {i : Nat} (h : 6 ≤ i) : (fill c).testBit i = false :=
  Nat.testBit_lt_two_pow ((fill_lt c).trans_le (Nat.pow_le_pow_right (n := 2) (by decide) h))

/-- STATUS bit by bit: LIFE in bits 1 and 0, BUSY, ERR, and FILL from bit 8 up, which ends at bit 13 (R55). -/
theorem status_getLsbD (s : State) (j : Nat) : s.status.getLsbD j =
    if j < 2 then s.life.code.getLsbD j
    else if j = 2 then s.busy
    else if j = 3 then s.err
    else decide (8 ≤ j) && (fill s.count).testBit (j - 8) := by
  have hlife : ∀ i, 2 ≤ i → s.life.code.getLsbD i = false := fun i hi => BitVec.getLsbD_of_ge _ i hi
  have hfill : ∀ i, 6 ≤ i → (fill s.count).testBit i = false := fun _ => fill_testBit_of_le s.count
  simp only [State.status, BitVec.getLsbD_or, BitVec.getLsbD_setWidth, BitVec.getLsbD_shiftLeft, BitVec.getLsbD_ofBool,
    BitVec.getLsbD_ofNat]
  grind

/-- From bit 4 up STATUS shows FILL from bit 8 and nothing else (R55). -/
theorem status_getLsbD_of_ge (s : State) {j : Nat} (h : 4 ≤ j) :
    s.status.getLsbD j = (decide (8 ≤ j) && (fill s.count).testBit (j - 8)) := by
  rw [status_getLsbD, if_neg (by omega), if_neg (by omega), if_neg (by omega)]

/-- The code of LIFE (R25). -/
theorem code_toNat (life : Life) :
    life.code.toNat = if life = .finalized then 2 else if life = .active then 1 else 0 := by
  cases life <;> rfl

theorem status_life (s : State) : s.status.extractLsb' 0 2 = s.life.code := by
  ext j hj
  rw [BitVec.getElem_extractLsb', Nat.zero_add, status_getLsbD, if_pos hj, BitVec.getLsbD_eq_getElem]

theorem status_fill (s : State) : s.status.extractLsb' 8 6 = BitVec.ofNat 6 (fill s.count) := by
  ext j hj
  rw [BitVec.getElem_extractLsb', status_getLsbD_of_ge s (by omega), decide_eq_true (Nat.le_add_right 8 j),
    Nat.add_sub_cancel_left, ← BitVec.getLsbD_eq_getElem, BitVec.getLsbD_ofNat, decide_eq_true hj]

/-- Bits 7:4 and the bits above 13 of STATUS read 0 (R55). -/
theorem status_reserved (s : State) {start len : Nat} (h : (4 ≤ start ∧ start + len ≤ 8) ∨ 14 ≤ start) :
    s.status.extractLsb' start len = 0#len := by
  ext j hj
  rw [BitVec.getElem_extractLsb', status_getLsbD_of_ge s (by omega), BitVec.getElem_zero]
  rcases h with ⟨-, hend⟩ | hstart
  · rw [decide_eq_false (by omega), Bool.false_and]
  · rw [fill_testBit_of_le s.count (by omega), Bool.and_false]

/-- Settles O45: each field is read off `status_getLsbD`. -/
theorem statusShowsItsFields : Obligations.StatusShowsItsFields := by
  intro s
  refine ⟨?_, ?_, status_getLsbD s 3, status_reserved s (by decide), ?_, status_reserved s (by decide), fun k v => ?_⟩
  · exact (congrArg BitVec.toNat (status_life s)).trans (code_toNat s.life)
  · rw [State.readReg, status_getLsbD]
    simp [State.busy, Option.isSome_iff_ne_none]
  · refine (congrArg BitVec.toNat (status_fill s)).trans ?_
    exact Nat.mod_eq_of_lt (fill_lt s.count)
  · exact writeReg_ignored s k v (by decide) (by decide)

/-- Byte `j` of a word, most significant first, is 8 of its bits (R63). -/
theorem wordByte_eq_extractLsb' (v : Word) (j : Nat) : wordByte v j = v.extractLsb' (24 - 8 * j) 8 := rfl

/-- In FINALIZED the digest registers show H (R58). -/
theorem digest_of_finalized {s : State} (h : s.life = .finalized) {i : Nat} (hi : i < 8) : s.digest i = s.h[i] := by
  simp [State.digest, h, nth, hi]

/-- Outside FINALIZED the digest registers show 0 (R58). -/
theorem digest_of_not_finalized {s : State} (h : s.life ≠ .finalized) (i : Nat) : s.digest i = 0#32 := by
  unfold State.digest
  split
  · rfl
  · rfl
  · contradiction

/-- `DIGESTi` is `H[i]` in FINALIZED and 0 elsewhere (R58). -/
theorem digest_eq (s : State) (i : Fin 8) : s.digest i.val = if s.life = .finalized then s.h[i] else 0#32 := by
  split
  case isTrue h => exact digest_of_finalized h i.isLt
  case isFalse h => exact digest_of_not_finalized h i

/-- ERR_CAUSE shows the cause's code (R56, R181). -/
theorem errCause_eq (s : State) : s.errCause = if s.cause = .illegalCmd then 1#32 else
    if s.cause = .absorbNotActive then 2#32 else if s.cause = .finalizeNotActive then 3#32 else 0#32 := by
  unfold State.errCause
  cases s.cause <;> rfl

/-- Settles O46: a read at an offset reads the register there. -/
theorem windowReadsFollowTheRegisterMap : Obligations.WindowReadsFollowTheRegisterMap := by
  intro s
  refine ⟨read_at_offset s .cmd, read_at_offset s .dataIn, read_at_offset s .status, ?_, ?_, ?_,
    read_at_offset s .errCmd, read_at_offset s .reserved, fun i => ?_⟩
  · exact (read_at_offset s .errCause).trans (congrArg some (errCause_eq s))
  · exact (read_at_offset s .countLo).trans (congrArg some (by ext; simp [State.readReg]))
  · exact (read_at_offset s .countHi).trans (congrArg some (by ext; simp [State.readReg]))
  · exact (read_at_offset s (.digest i)).trans (congrArg some (digest_eq s i))

/-- Settles O47: in FINALIZED the digest register is H, and its bytes are cut from the top. -/
theorem digestBytesAreBigEndian : Obligations.DigestBytesAreBigEndian := by
  intro s k hk hlife
  have hi : k / 4 < 8 := by omega
  rw [State.digestByte, digest_of_finalized hlife hi, wordByte_eq_extractLsb']

/-- Outside FINALIZED no register reads H, the buffer or the sequencer (R58). -/
theorem readReg_hidden {s : State} (hlife : s.life ≠ .finalized) (h' : Vector Word 8) (buf' : Vector Byte 64)
    (q : Sequencer) (r : Reg) : ({ s with h := h', buf := buf', seq := q } : State).readReg r = s.readReg r := by
  cases r with
  | digest i =>
    exact (digest_of_not_finalized (s := { s with h := h', buf := buf', seq := q }) hlife i).trans
      (digest_of_not_finalized hlife i).symm
  | _ => rfl

/-- Settles O53: the window is a list of register reads. -/
theorem hashIsHiddenOutsideFinalized : Obligations.HashIsHiddenOutsideFinalized := by
  intro s h' buf' q hlife
  simp only [State.window, readReg_hidden hlife h' buf' q]

end Sys2Proof.Machine
end

section
/-! SUPPORT and PROOFS. The statements on the encoding (spec/30_encoding.md R80 to R86, R93): the rows of R84, a command
with the operands of a word, and what `decode` answers on every word. -/
namespace Sys2Proof

/-! ### The rows of R84 -/

/-- A row's mask is all of OP and the unused bits (R81, R84). -/
theorem mask_eq_op_or_unused : ∀ r ∈ rows, r.mask = 0xF#32 ||| (r.mask &&& ~~~0xF#32) := by decide

theorem mask_and_op : ∀ r ∈ rows, r.mask &&& 0xF#32 = 0xF#32 := by decide

/-- A row's match value is a value of OP (R83). -/
theorem pattern_and_op : ∀ r ∈ rows, r.pattern &&& 0xF#32 = r.pattern := by decide

theorem pattern_lt_five : ∀ r ∈ rows, r.pattern.toNat < 5 := by decide

/-- The rows have different values of OP (R83). -/
theorem row_eq_of_pattern_eq : ∀ r ∈ rows, ∀ r' ∈ rows, r.pattern = r'.pattern → r = r' := by decide

theorem row_mem_rows (i : Instr) : i.row ∈ rows := by
  cases i <;> simp [Instr.row, rows]

/-- Every row is the row of some command (R84). -/
theorem exists_row_eq {r : Row} (hr : r ∈ rows) : ∃ i : Instr, i.row = r := by
  simp only [rows, List.mem_cons, List.not_mem_nil, or_false] at hr
  obtain rfl | rfl | rfl | rfl | rfl := hr
  · exact ⟨.nop, rfl⟩
  · exact ⟨.init, rfl⟩
  · exact ⟨.absorbB 0#8, rfl⟩
  · exact ⟨.absorbW 1, rfl⟩
  · exact ⟨.finalize, rfl⟩

theorem selects_iff {r : Row} {w : Word} : r.selects w = true ↔ w &&& r.mask = r.pattern := beq_iff_eq

/-- A word's OP is the match value of the row that selects it (R83). -/
theorem op_of_selects {r : Row} (hr : r ∈ rows) {w : Word} (h : r.selects w = true) : w &&& 0xF#32 = r.pattern := by
  rw [← mask_and_op r hr, ← BitVec.and_assoc, selects_iff.mp h, pattern_and_op r hr]

/-- A row selects the words that have its OP and zeros in the unused bits (R81, R84). -/
theorem selects_iff_op_and_unused {r : Row} (hr : r ∈ rows) {w : Word} :
    r.selects w = true ↔ w &&& 0xF#32 = r.pattern ∧ w &&& (r.mask &&& ~~~0xF#32) = 0#32 := by
  constructor
  · intro h
    refine ⟨op_of_selects hr h, ?_⟩
    rw [← BitVec.and_assoc, selects_iff.mp h, ← pattern_and_op r hr, BitVec.and_assoc]
    exact BitVec.and_zero
  · rintro ⟨hop, hunused⟩
    rw [selects_iff, mask_eq_op_or_unused r hr, BitVec.and_or_distrib_left, hop, hunused, BitVec.or_zero]

/-- No word matches two rows: the rows differ in OP (R84). -/
theorem rows_disjoint {r r' : Row} (hr : r ∈ rows) (hr' : r' ∈ rows) {w : Word} (h : r.selects w = true)
    (h' : r'.selects w = true) : r = r' :=
  row_eq_of_pattern_eq r hr r' hr' ((op_of_selects hr h).symm.trans (op_of_selects hr' h'))

/-- Field OP is the low four bits as a number (R81). -/
theorem opField_toNat (w : Word) : (opField w).toNat = (w &&& 0xF#32).toNat := by
  have h : w.toNat &&& 15 = w.toNat % 2 ^ 4 := Nat.and_two_pow_sub_one_eq_mod _ 4
  simp [opField, h]

/-! ### A command's word and its operand fields (R81, R82) -/

/-- A field put back at its place is the word with the bits outside it cleared. -/
theorem setWidth_extractLsb'_shiftLeft (w : Word) (start len : Nat) :
    (w.extractLsb' start len).setWidth 32 <<< start = w &&& ((BitVec.allOnes len).setWidth 32 <<< start) := by
  ext j hj
  simp only [BitVec.getElem_shiftLeft, BitVec.getElem_setWidth, BitVec.getLsbD_extractLsb', BitVec.getElem_and,
    BitVec.getLsbD_allOnes]
  grind

/-- In a word that ABSORB.B's row selects, BYTE is all that the row leaves free (R84). -/
theorem encode_byteField {w : Word} (h : w &&& 0xFFFF00FF#32 = 0x2#32) : encode (.absorbB (byteField w)) = w := by
  have hfield : (byteField w).setWidth 32 <<< 8 = w &&& 0x0000FF00#32 := setWidth_extractLsb'_shiftLeft w 8 8
  have hall : 0xFFFF00FF#32 ||| 0x0000FF00#32 = BitVec.allOnes 32 := by decide
  rw [encode, hfield, ← h, ← BitVec.and_or_distrib_left, hall, BitVec.and_allOnes]

/-- In a word that ABSORB.W's row selects, NB is all that the row leaves free (R84). -/
theorem encode_nbField {w : Word} (h : w &&& 0xFFFFFFCF#32 = 0x3#32) :
    encode (.absorbW ((nbField w).toNat + 1)) = w := by
  have hfield : (nbField w).setWidth 32 <<< 4 = w &&& 0x00000030#32 := setWidth_extractLsb'_shiftLeft w 4 2
  have hall : 0xFFFFFFCF#32 ||| 0x00000030#32 = BitVec.allOnes 32 := by decide
  rw [encode, Nat.add_sub_cancel, BitVec.ofNat_toNat, hfield, ← h, ← BitVec.and_or_distrib_left, hall,
    BitVec.and_allOnes]

theorem byteField_encode (b : Byte) : byteField (encode (.absorbB b)) = b := by
  have hop : (0x2#32).extractLsb' 8 8 = 0#8 := by decide
  rw [byteField, encode, BitVec.extractLsb'_or, hop, BitVec.zero_or]
  ext j hj
  simp only [BitVec.getElem_extractLsb', BitVec.getLsbD_shiftLeft, BitVec.getLsbD_setWidth]
  grind

theorem absorbW_wf_iff {n : Nat} : (Instr.absorbW n).wf = true ↔ 1 ≤ n ∧ n ≤ 4 := by simp [Instr.wf]

theorem nbField_encode {n : Nat} (h : (Instr.absorbW n).wf = true) : (nbField (encode (.absorbW n))).toNat + 1 = n := by
  obtain rfl | rfl | rfl | rfl : n = 1 ∨ n = 2 ∨ n = 3 ∨ n = 4 := by
    have := absorbW_wf_iff.mp h
    omega
  all_goals decide

/-- The command of `i`'s row with the operands of the word `w` (R82). -/
def Instr.withOperandsOf (i : Instr) (w : Word) : Instr :=
  match i with
  | .nop => .nop
  | .init => .init
  | .absorbB _ => .absorbB (byteField w)
  | .absorbW _ => .absorbW ((nbField w).toNat + 1)
  | .finalize => .finalize

@[simp] theorem row_withOperandsOf (i : Instr) (w : Word) : (i.withOperandsOf w).row = i.row := by cases i <;> rfl

@[simp] theorem withOperandsOf_withOperandsOf (i : Instr) (w : Word) :
    (i.withOperandsOf w).withOperandsOf w = i.withOperandsOf w := by cases i <;> rfl

/-- The word of a well-formed command has the command's operands in its fields (R82, R89). -/
theorem withOperandsOf_encode {i : Instr} (hwf : i.wf = true) : i.withOperandsOf (encode i) = i := by
  cases i with
  | nop => rfl
  | init => rfl
  | absorbB b => exact congrArg Instr.absorbB (byteField_encode b)
  | absorbW n => exact congrArg Instr.absorbW (nbField_encode hwf)
  | finalize => rfl

/-- A row that tests every bit selects its match value only (R84). -/
theorem word_eq_of_full_mask {w p : Word} (h : (⟨p, 0xFFFFFFFF#32⟩ : Row).selects w = true) : w = p :=
  BitVec.and_allOnes.symm.trans (selects_iff.mp h)

/-- A word is the word of the command that it selects, with the operands it holds (R82, R84). -/
theorem encode_withOperandsOf {i : Instr} {w : Word} (h : i.row.selects w = true) :
    encode (i.withOperandsOf w) = w := by
  cases i with
  | nop => exact (word_eq_of_full_mask h).symm
  | init => exact (word_eq_of_full_mask h).symm
  | absorbB b => exact encode_byteField (selects_iff.mp h)
  | absorbW n => exact encode_nbField (selects_iff.mp h)
  | finalize => exact (word_eq_of_full_mask h).symm

/-- The word of a well-formed command matches the command's row (R84, R89). -/
theorem row_selects_encode {i : Instr} (hwf : i.wf = true) : i.row.selects (encode i) = true := by
  cases i with
  | nop => exact Laws.RowMatches.nop hwf
  | init => exact Laws.RowMatches.init hwf
  | absorbB b => exact Laws.RowMatches.absorbB b hwf
  | absorbW n => exact Laws.RowMatches.absorbW n hwf
  | finalize => exact Laws.RowMatches.finalize hwf

/-! ### What `decode` answers -/

/-- A word that a command's row selects decodes to that command with the word's operands (R85). -/
theorem decode_of_selects {i : Instr} {w : Word} (h : i.row.selects w = true) :
    decode w = .ok (i.withOperandsOf w) := by
  cases i with
  | nop => rw [word_eq_of_full_mask h]; rfl
  | init => rw [word_eq_of_full_mask h]; rfl
  | absorbB b =>
    have hrow : w &&& 0xFFFF00FF#32 = 0x2#32 := selects_iff.mp h
    have hnop : w ≠ 0x0#32 := by rintro rfl; exact absurd hrow (by decide)
    have hinit : w ≠ 0x1#32 := by rintro rfl; exact absurd hrow (by decide)
    rw [decode, if_neg hnop, if_neg hinit, if_pos hrow]
    rfl
  | absorbW n =>
    have hrow : w &&& 0xFFFFFFCF#32 = 0x3#32 := selects_iff.mp h
    have hnop : w ≠ 0x0#32 := by rintro rfl; exact absurd hrow (by decide)
    have hinit : w ≠ 0x1#32 := by rintro rfl; exact absurd hrow (by decide)
    have habsorbB : w &&& 0xFFFF00FF#32 ≠ 0x2#32 := by
      intro hb
      have hrows := rows_disjoint (row_mem_rows (.absorbB 0#8)) (row_mem_rows (.absorbW 1)) (selects_iff.mpr hb) h
      exact absurd hrows (by decide)
    rw [decode, if_neg hnop, if_neg hinit, if_neg habsorbB, if_pos hrow]
    rfl
  | finalize => rw [word_eq_of_full_mask h]; rfl

/-- A word that no row selects is illegal, for the reason its OP gives (R85, R86). -/
theorem decode_of_no_row {w : Word} (h : ∀ i : Instr, ¬ i.row.selects w = true) :
    decode w = .error (if 5 ≤ (opField w).toNat then .reservedOp else .nonzeroUnusedBits) := by
  have hnop : w ≠ 0x0#32 := by rintro rfl; exact h .nop rfl
  have hinit : w ≠ 0x1#32 := by rintro rfl; exact h .init rfl
  have habsorbB : w &&& 0xFFFF00FF#32 ≠ 0x2#32 := fun hb => h (.absorbB 0#8) (selects_iff.mpr hb)
  have habsorbW : w &&& 0xFFFFFFCF#32 ≠ 0x3#32 := fun hw => h (.absorbW 1) (selects_iff.mpr hw)
  have hfinalize : w ≠ 0x4#32 := by rintro rfl; exact h .finalize rfl
  rw [decode, if_neg hnop, if_neg hinit, if_neg habsorbB, if_neg habsorbW, if_neg hfinalize]
  split <;> rfl

/-- A word decodes to a command exactly when the command's row selects it and its operand fields hold the command's
operands (R82, R84, R85). -/
theorem decode_eq_ok_iff {w : Word} {i : Instr} :
    decode w = .ok i ↔ i.row.selects w = true ∧ i.withOperandsOf w = i := by
  constructor
  · intro h
    by_cases hrow : ∃ j : Instr, j.row.selects w = true
    · obtain ⟨j, hj⟩ := hrow
      obtain rfl : j.withOperandsOf w = i := Except.ok.inj ((decode_of_selects hj).symm.trans h)
      exact ⟨by rwa [row_withOperandsOf], withOperandsOf_withOperandsOf j w⟩
    · rw [decode_of_no_row (not_exists.mp hrow)] at h
      cases h
  · rintro ⟨hrow, hoperands⟩
    rw [decode_of_selects hrow, hoperands]

/-- Settles O1: the command's word is selected by its row and holds its operands. -/
theorem decodeOfEncodeIsTheCommand : Obligations.DecodeOfEncodeIsTheCommand := fun _ hwf =>
  decode_eq_ok_iff.mpr ⟨row_selects_encode hwf, withOperandsOf_encode hwf⟩

/-- Settles O2: the row that selects the word and the word's operands fix every bit of it. -/
theorem encodeOfDecodeIsTheWord : Obligations.EncodeOfDecodeIsTheWord := by
  intro w i h
  obtain ⟨hrow, hoperands⟩ := decode_eq_ok_iff.mp h
  refine ⟨Machine.wf_of_decode h, ?_⟩
  rw [← hoperands]
  exact encode_withOperandsOf hrow

/-- Settles O3: selection is `decode_eq_ok_iff`, and the rows are disjoint by OP. -/
theorem wordsSelectCommandsByDisjointPatterns : Obligations.WordsSelectCommandsByDisjointPatterns := by
  refine ⟨rfl, rfl, fun _ => rfl, fun _ => rfl, rfl, fun w i h => ?_, fun w r hr h => ?_,
    fun w r hr r' hr' h h' => rows_disjoint hr hr' h h', fun w r => selects_iff, fun w b h => ?_, fun w n h => ?_⟩
  · exact ⟨row_mem_rows i, (decode_eq_ok_iff.mp h).1⟩
  · obtain ⟨i, rfl⟩ := exists_row_eq hr
    exact ⟨i.withOperandsOf w, decode_of_selects h, row_withOperandsOf i w⟩
  · exact (Instr.absorbB.inj (decode_eq_ok_iff.mp h).2).symm
  · exact (Instr.absorbW.inj (decode_eq_ok_iff.mp h).2).symm

/-- Settles O5: the words are evaluated in both directions. -/
theorem encodingExamplesHold : Obligations.EncodingExamplesHold := by
  unfold Obligations.EncodingExamplesHold
  decide

/-! ### The illegal words (R86) -/

/-- A word is rejected exactly when no row selects it, for the reason its OP gives (R86). -/
theorem decode_eq_error_iff {w : Word} {e : Illegal} : decode w = .error e ↔ (∀ i : Instr, ¬ i.row.selects w = true)
    ∧ (if 5 ≤ (opField w).toNat then .reservedOp else .nonzeroUnusedBits) = e := by
  by_cases h : ∃ i : Instr, i.row.selects w = true
  · obtain ⟨i, hi⟩ := h
    rw [decode_of_selects hi]
    exact ⟨fun he => (by cases he), fun he => absurd hi (he.1 i)⟩
  · have hnone := not_exists.mp h
    rw [decode_of_no_row hnone, Except.error.injEq]
    exact ⟨fun he => ⟨hnone, he⟩, fun he => he.2⟩

/-- A word that a row selects has OP below 5 (R83). -/
theorem op_lt_five_of_selects {i : Instr} {w : Word} (h : i.row.selects w = true) : (w &&& 0xF#32).toNat < 5 := by
  rw [op_of_selects (row_mem_rows i) h]
  exact pattern_lt_five _ (row_mem_rows i)

/-- The reserved operations are the words with OP 5 to 15, whatever their other bits (R86). -/
theorem decode_eq_reservedOp_iff {w : Word} : decode w = .error .reservedOp ↔ 5 ≤ (w &&& 0xF#32).toNat := by
  rw [decode_eq_error_iff, opField_toNat]
  constructor
  · rintro ⟨-, he⟩
    by_contra hop
    rw [if_neg hop] at he
    cases he
  · intro hop
    exact ⟨fun i hi => absurd (op_lt_five_of_selects hi) (by omega), if_pos hop⟩

/-- A word rejected for its unused bits has the OP of a command (R86). -/
theorem op_lt_five_of_nonzeroUnusedBits {w : Word} (h : decode w = .error .nonzeroUnusedBits) :
    (w &&& 0xF#32).toNat < 5 := by
  by_contra hop
  rw [decode_eq_reservedOp_iff.mpr (not_lt.mp hop)] at h
  cases h

/-- A word with the OP of a command is rejected exactly when a bit is set that the command's row has unused (R86). -/
theorem decode_eq_nonzeroUnusedBits_iff_of_op {w : Word} (i : Instr) (hop : w &&& 0xF#32 = i.row.pattern) :
    decode w = .error .nonzeroUnusedBits ↔ w &&& (i.row.mask &&& ~~~0xF#32) ≠ 0#32 := by
  have hi := row_mem_rows i
  have hlt : ¬ 5 ≤ (opField w).toNat := by
    rw [opField_toNat, hop]
    exact not_le.mpr (pattern_lt_five _ hi)
  rw [decode_eq_error_iff, if_neg hlt]
  constructor
  · rintro ⟨hnone, -⟩ hunused
    exact hnone i ((selects_iff_op_and_unused hi).mpr ⟨hop, hunused⟩)
  · intro hunused
    refine ⟨fun j hj => hunused ?_, rfl⟩
    have hrow : j.row = i.row :=
      row_eq_of_pattern_eq _ (row_mem_rows j) _ hi ((op_of_selects (row_mem_rows j) hj).symm.trans hop)
    exact ((selects_iff_op_and_unused hi).mp (hrow ▸ hj)).2

theorem eq_of_toNat_lt_five {x : Word} (h : x.toNat < 5) :
    x = 0#32 ∨ x = 1#32 ∨ x = 2#32 ∨ x = 3#32 ∨ x = 4#32 := by
  bv_omega

/-- Settles O4: OP tells the two reasons apart, and below 5 the row with that OP tells which bits are unused. -/
theorem illegalWordsAreReservedOpOrNonzeroUnusedBits : Obligations.IllegalWordsAreReservedOpOrNonzeroUnusedBits := by
  intro w
  refine ⟨decode_eq_reservedOp_iff, ?_⟩
  by_cases hlt : (w &&& 0xF#32).toNat < 5
  · obtain hop | hop | hop | hop | hop := eq_of_toNat_lt_five hlt
    · simp [decode_eq_nonzeroUnusedBits_iff_of_op .nop hop, hop, Instr.row]
    · simp [decode_eq_nonzeroUnusedBits_iff_of_op .init hop, hop, Instr.row]
    · simp [decode_eq_nonzeroUnusedBits_iff_of_op (.absorbB 0#8) hop, hop, Instr.row]
    · simp [decode_eq_nonzeroUnusedBits_iff_of_op (.absorbW 1) hop, hop, Instr.row]
    · simp [decode_eq_nonzeroUnusedBits_iff_of_op .finalize hop, hop, Instr.row]
  · constructor
    · exact fun h => absurd (op_lt_five_of_nonzeroUnusedBits h) hlt
    · rintro (⟨hop | hop | hop, -⟩ | ⟨hop, -⟩ | ⟨hop, -⟩)
      all_goals exact absurd (by rw [hop]; decide) hlt

end Sys2Proof
end

section
/-! SUPPORT and PROOFS. The statements on the host syntax (spec/30_encoding.md R89 to R91): the words of the mnemonics,
and the bytes that ABSORB.S absorbs. -/
namespace Sys2Proof.Machine

/-! ### What the mnemonics assemble to (R89) -/

/-- A byte written as a number goes into its field as it is. -/
theorem encode_absorbB_ofNat {imm8 : Nat} (h : imm8 ≤ 255) :
    encode (.absorbB (BitVec.ofNat 8 imm8)) = 0x2#32 ||| BitVec.ofNat 32 imm8 <<< 8 := by
  have hfield : (BitVec.ofNat 8 imm8).setWidth 32 = BitVec.ofNat 32 imm8 := by bv_omega
  rw [encode, hfield]

/-- Settles O6: an operand in range is put in its field, and an operand out of range has no word. -/
theorem mnemonicsAssembleToTheirWords : Obligations.MnemonicsAssembleToTheirWords := by
  refine ⟨rfl, rfl, fun imm8 => ?_, fun n => ?_, rfl, fun w => rfl⟩
  · rw [assemble]
    split
    case isTrue h => rw [← encode_absorbB_ofNat h]; rfl
    case isFalse => rfl
  · exact if_congr absorbW_wf_iff rfl rfl

/-! ### The bytes that ABSORB.S absorbs (R91) -/

/-- The bytes packed into a word come back in order (R82). -/
theorem wordByte_be32 (a b c d : Byte) {k : Nat} (h : k < 4) : wordByte (be32 a b c d) k = [a, b, c, d][k] := by
  ext j hj
  simp only [wordByte, be32, BitVec.getElem_setWidth, BitVec.getLsbD_ushiftRight, BitVec.getLsbD_or,
    BitVec.getLsbD_shiftLeft, BitVec.getLsbD_setWidth]
  interval_cases k
  all_goals grind

theorem captureBytes_be32 (n : Nat) (a b c d : Byte) : captureBytes n (be32 a b c d) = [a, b, c, d].take n := by
  have hbytes : (List.range 4).map (wordByte (be32 a b c d)) = [a, b, c, d] := by
    simp [List.range_succ, wordByte_be32]
  rw [captureBytes, hbytes]

/-- `ABSORB.W #n` of a packed word absorbs its first `n` bytes, whatever DATA_IN held before (R91, 41_commands.md
R158). -/
theorem absorbedBytes_absorbWOps {n : Nat} (hwf : (Instr.absorbW n).wf = true) (dataIn : Word) (a b c d : Byte)
    (ops : List HostOp) : absorbedBytes dataIn (absorbWOps n (be32 a b c d) ++ ops)
      = [a, b, c, d].take n ++ absorbedBytes (be32 a b c d) ops := by
  have hcmd : commandBytes (be32 a b c d) (encode (.absorbW n)) = [a, b, c, d].take n := by
    rw [commandBytes, decodeOfEncodeIsTheCommand _ hwf, ← captureBytes_be32]
    rfl
  rw [← hcmd]
  rfl

/-- The groups of four and the shorter last group absorb the text between them (R91). -/
theorem absorbedBytes_absorbSOps (text : List Byte) (dataIn : Word) :
    absorbedBytes dataIn (absorbSOps text) = text := by
  induction text using absorbSOps.induct generalizing dataIn with
  | case1 => rfl
  | case2 a => exact absorbedBytes_absorbWOps (n := 1) rfl dataIn a 0#8 0#8 0#8 []
  | case3 a b => exact absorbedBytes_absorbWOps (n := 2) rfl dataIn a b 0#8 0#8 []
  | case4 a b c => exact absorbedBytes_absorbWOps (n := 3) rfl dataIn a b c 0#8 []
  | case5 a b c d rest ih =>
    rw [absorbSOps, absorbedBytes_absorbWOps rfl, ih]
    rfl

/-- Settles O7: by the 4-byte groups of the text. -/
theorem absorbTextAbsorbsItsBytes : Obligations.AbsorbTextAbsorbsItsBytes := fun text d =>
  ⟨absorbSOps text, rfl, absorbedBytes_absorbSOps text d⟩

end Sys2Proof.Machine
end

section
/-! SUPPORT and PROOFS. The statements on the compression core (spec/40_compression.md): the word functions bit by bit,
the schedule and its window form, the rounds of a compression, and the round pipeline of the sequencer. -/
namespace Sys2Proof.Machine

/-! ### The word functions (R100 to R105) -/

theorem getLsbD_ch (x y z : Word) {i : Nat} (hi : i < 32) :
    (ch x y z).getLsbD i = if x.getLsbD i then y.getLsbD i else z.getLsbD i := by
  simp only [ch, BitVec.getLsbD_xor, BitVec.getLsbD_and, BitVec.getLsbD_not, hi, decide_true, Bool.true_and]
  cases x.getLsbD i <;> simp

theorem getLsbD_maj (x y z : Word) (i : Nat) :
    (maj x y z).getLsbD i
      = ((x.getLsbD i && y.getLsbD i) ^^ (x.getLsbD i && z.getLsbD i) ^^ (y.getLsbD i && z.getLsbD i)) := by
  simp only [maj, BitVec.getLsbD_xor, BitVec.getLsbD_and]

/-- The majority of three bits, as Maj computes it and by counting. -/
theorem majority_iff_two_le : ∀ a b c : Bool,
    ((a && b) ^^ (a && c) ^^ (b && c)) = true ↔ 2 ≤ a.toNat + b.toNat + c.toNat := by decide

theorem getLsbD_ones {i : Nat} (hi : i < 32) : (0xFFFFFFFF#32).getLsbD i = true := by
  rw [show 0xFFFFFFFF#32 = BitVec.allOnes 32 from rfl, BitVec.getLsbD_allOnes, decide_eq_true hi]

theorem ch_allOnes (y z : Word) : ch 0xFFFFFFFF#32 y z = y :=
  BitVec.eq_of_getLsbD_eq fun i hi => by rw [getLsbD_ch _ _ _ hi, if_pos (getLsbD_ones hi)]

theorem ch_zero (y z : Word) : ch 0#32 y z = z :=
  BitVec.eq_of_getLsbD_eq fun i hi => by
    rw [getLsbD_ch _ _ _ hi, BitVec.getLsbD_zero, if_neg Bool.false_ne_true]

theorem maj_same (y z : Word) : maj y y z = y :=
  BitVec.eq_of_getLsbD_eq fun i _ => by rw [getLsbD_maj]; cases y.getLsbD i <;> simp

theorem maj_zero_zero (z : Word) : maj 0#32 0#32 z = 0#32 := maj_same 0#32 z

theorem maj_allOnes (y z : Word) : maj 0xFFFFFFFF#32 y z = y ||| z :=
  BitVec.eq_of_getLsbD_eq fun i hi => by
    rw [getLsbD_maj, getLsbD_ones hi, BitVec.getLsbD_or]
    cases y.getLsbD i <;> simp

/-- Settles O33: each bit of Ch and Maj from the bits of its arguments. -/
theorem chSelectsAndMajIsTheMajority : Obligations.ChSelectsAndMajIsTheMajority := by
  refine ⟨fun _ _ _ => rfl, fun _ _ _ => rfl, fun x y z i hi => getLsbD_ch x y z hi, fun x y z i _ => ?_,
    fun y z => ⟨ch_allOnes y z, ch_zero y z, maj_same y z, maj_zero_zero z, maj_allOnes y z⟩,
    by decide, by decide⟩
  rw [getLsbD_maj]
  exact majority_iff_two_le _ _ _

/-- The rotation of R10 is the library's. -/
theorem rotr_eq_rotateRight (x : Word) {n : Nat} (hn : n < 32) : rotr x n = x.rotateRight n := by
  rw [BitVec.rotateRight_def, Nat.mod_eq_of_lt hn]
  rfl

theorem bigSigma0_eq (x : Word) : bigSigma0 x = x.rotateRight 2 ^^^ x.rotateRight 13 ^^^ x.rotateRight 22 := by
  simp only [bigSigma0, rotr_eq_rotateRight, Nat.reduceLT]

theorem bigSigma1_eq (x : Word) : bigSigma1 x = x.rotateRight 6 ^^^ x.rotateRight 11 ^^^ x.rotateRight 25 := by
  simp only [bigSigma1, rotr_eq_rotateRight, Nat.reduceLT]

theorem smallSigma0_eq (x : Word) : smallSigma0 x = x.rotateRight 7 ^^^ x.rotateRight 18 ^^^ x >>> 3 := by
  simp only [smallSigma0, shr, rotr_eq_rotateRight, Nat.reduceLT]

theorem smallSigma1_eq (x : Word) : smallSigma1 x = x.rotateRight 17 ^^^ x.rotateRight 19 ^^^ x >>> 10 := by
  simp only [smallSigma1, shr, rotr_eq_rotateRight, Nat.reduceLT]

/-- Settles O34: the four functions are rotations and shifts; the corner cases and examples are evaluated. -/
theorem sigmaFunctionsRotateAndShift : Obligations.SigmaFunctionsRotateAndShift :=
  ⟨bigSigma0_eq, bigSigma1_eq, smallSigma0_eq, smallSigma1_eq, by decide⟩

/-! ### The schedule (R108, R109) and its window form (R116) -/

/-- Big-endian packing puts the bytes one after another (R10). -/
theorem be32_eq_append (a b c d : Byte) : be32 a b c d = a ++ b ++ c ++ d := by
  ext i hi
  simp only [be32, BitVec.getElem_or, BitVec.getElem_shiftLeft, BitVec.getElem_setWidth]
  grind

/-- The entries written before round `k` are those of the whole schedule. -/
theorem nth_scheduleAfter (block : Vector Byte 64) (w : Vector Word 64) {j k : Nat} (hj : j < 16 ∨ j < k)
    (hk : k ≤ 64) : nth (scheduleAfter block w k) j = nth (schedule block) j := by
  have hstable := scheduleAfter_stable block w hj (64 - k)
  rw [Nat.add_sub_cancel' hk] at hstable
  rw [← hstable, schedule_eq]
  exact scheduleAfter_congr block _ _ 64 j (by omega)

theorem nth_schedule_block (block : Vector Byte 64) {t : Nat} (ht : t < 16) :
    nth (schedule block) t = blockWord block t := by
  rw [← nth_scheduleAfter block (Vector.replicate 64 0#32) (Or.inl ht) (Nat.zero_le 64), scheduleAfter_zero,
    nth_loadSchedule, if_pos ht]

/-- The whole schedule is a solution of the recurrence (R109). -/
theorem nth_schedule_recurrence (block : Vector Byte 64) {t : Nat} (h16 : 16 ≤ t) (h64 : t < 64) :
    nth (schedule block) t = recurrence (schedule block) t := by
  let w := Vector.replicate 64 0#32
  calc nth (schedule block) t
      = nth (scheduleAfter block w (t + 1)) t := (nth_scheduleAfter_round block w h64).symm
    _ = recurrence (scheduleAfter block w t) t := by
        rw [scheduleAfter_succ, nth_extendSchedule, if_pos ⟨rfl, h16, h64⟩]
    _ = recurrence (schedule block) t :=
        recurrence_congr h16 fun j hj => nth_scheduleAfter block w (Or.inr hj) (Nat.le_of_lt h64)

/-- Settles O35: what the load step and round `t` write stays to the end of the schedule. -/
theorem scheduleFollowsTheRecurrence : Obligations.ScheduleFollowsTheRecurrence :=
  ⟨fun block t ht => by rw [nth_schedule_block block ht, blockWord, be32_eq_append],
    fun block _ h16 h64 => nth_schedule_recurrence block h16 h64⟩

theorem nth_windowAfter_zero (block : Vector Byte 64) {j : Nat} (hj : j < 16) :
    nth (windowAfter block 0) j = blockWord block j := by
  rw [windowAfter, Nat.zero_add, List.range_one, List.foldl_cons, List.foldl_nil, extendWindow, if_pos (by decide),
    nth_foldl_put _ _ (Nat.le_refl 16), if_pos hj]

theorem windowAfter_succ (block : Vector Byte 64) (t : Nat) :
    windowAfter block (t + 1) = extendWindow (windowAfter block t) (t + 1) := by
  simp only [windowAfter, List.range_succ (n := t + 1), List.foldl_append, List.foldl_cons, List.foldl_nil]

/-- The window holds the 16 schedule words that end with `W[max t 15]`, each at its index modulo 16 (R116). -/
def HoldsLastWords (win : Vector Word 16) (block : Vector Byte 64) (t : Nat) : Prop :=
  ∀ j, t < j + 16 → j ≤ max t 15 → nth win (j % 16) = nth (schedule block) j

/-- Round `t` replaces the oldest word, `W[t - 16]`, by `W[t]`. -/
theorem holdsLastWords_extendWindow {win : Vector Word 16} {block : Vector Byte 64} {t : Nat} (ht : t + 1 < 64)
    (h : HoldsLastWords win block t) : HoldsLastWords (extendWindow win (t + 1)) block (t + 1) := by
  intro j hlow hhigh
  unfold extendWindow
  by_cases h16 : t + 1 < 16
  · rw [if_pos h16]
    exact h j (by omega) (by omega)
  · rw [if_neg h16]
    by_cases hj : j = t + 1
    · subst hj
      have holdest : (t + 1) % 16 = (t + 1 - 16) % 16 := by omega
      rw [nth_put_same _ _ _ (Nat.mod_lt _ (by decide)), nth_schedule_recurrence block (by omega) ht, recurrence,
        h (t + 1 - 2) (by omega) (by omega), h (t + 1 - 7) (by omega) (by omega),
        h (t + 1 - 15) (by omega) (by omega), holdest, h (t + 1 - 16) (by omega) (by omega)]
    · rw [nth_put_ne _ _ (by omega)]
      exact h j (by omega) (by omega)

theorem holdsLastWords_windowAfter (block : Vector Byte 64) {t : Nat} (ht : t < 64) :
    HoldsLastWords (windowAfter block t) block t := by
  induction t with
  | zero =>
    intro j _ hj
    have hj16 : j < 16 := by omega
    rw [Nat.mod_eq_of_lt hj16, nth_windowAfter_zero block hj16, nth_schedule_block block hj16]
  | succ t ih =>
    rw [windowAfter_succ]
    exact holdsLastWords_extendWindow ht (ih (by omega))

/-- Settles O36: the window holds the last 16 words of the schedule in every round, `W[t]` among them. -/
theorem windowGivesTheSameSchedule : Obligations.WindowGivesTheSameSchedule := fun block t ht =>
  holdsLastWords_windowAfter block ht t (by omega) (Nat.le_max_left t 15)

/-! ### The rounds of a compression (R110 to R113, R120) -/

theorem nth_eq_getElem {k n : Nat} (v : Vector (BitVec k) n) {i : Nat} (h : i < n) : nth v i = v[i] := by
  simp [nth, h]

/-- Settles O37: the variables before round `t` are `varsAfter` of the schedule. -/
theorem compressRunsTheSixtyFourRounds : Obligations.CompressRunsTheSixtyFourRounds := by
  intro H block
  refine ⟨varsAfter (schedule block) (loadVars H), ?_, fun t _ => ⟨_, _, rfl, rfl, varsAfter_succ _ _ t⟩, ?_⟩
  · simp only [varsAfter_zero, loadVars, nth_eq_getElem, Nat.reduceLT]
  · simp only [compress_eq, addVars, nth_eq_getElem, Nat.reduceLT]

/-- Settles O38: the kernel evaluates the schedule, the round and the compressions. -/
theorem compressionExamplesHold : Obligations.CompressionExamplesHold := by
  refine ⟨?_, ?_, ?_, ?_, ?_, ?_⟩
  all_goals decide +kernel

/-! ### The round pipeline (R117, R118) -/

/-- Before the add step the sequencer's copies of H and of the buffer are those at the load (R118). -/
theorem steps_before_add_keep_copies {q : Sequencer} {c : Caller} (h : q.phase = .compressing c .load) {k : Nat}
    (hk : k ≤ 65) : (Sequencer.steps k q).workH = q.workH ∧ (Sequencer.steps k q).workBuf = q.workBuf := by
  cases k with
  | zero => exact ⟨rfl, rfl⟩
  | succ i =>
    obtain hi | rfl : i ≤ 63 ∨ i = 64 := by omega
    · rw [Nat.add_comm, steps_load_rounds h hi]
      exact ⟨rfl, rfl⟩
    · rw [steps_to_add h]
      exact ⟨rfl, rfl⟩

/-- Settles O29: the add step is the 66th, and no step before it writes the copies. -/
theorem pipelineComputesCompress : Obligations.PipelineComputesCompress := by
  intro q c h
  refine ⟨?_, fun k hk => ?_, fun k hk => (steps_before_add_keep_copies h hk).1⟩
  · rw [steps_compress h, compressed_workH]
  · by_cases h66 : k = 66
    · rw [h66, steps_compress h, compressed_workBuf]
    · exact (steps_before_add_keep_copies h (by omega)).2

end Sys2Proof.Machine
end

section
/-! SUPPORT and PROOFS. The statements on the commands (spec/41_commands.md): a command's acceptance and its completion
with the whole next state, held writes and the progress of a pending command, `absorb` and `pad` byte by byte, and
commands run one after another. -/
namespace Sys2Proof.Machine

/-! ### The words of the commands -/

/-- Exactly one word decodes to a well-formed command, its own (R84). -/
theorem decode_eq_ok_iff_eq_encode {i : Instr} (hwf : i.wf = true) (w : Word) : decode w = .ok i ↔ w = encode i := by
  constructor
  · intro h
    obtain ⟨-, hw⟩ := encodeOfDecodeIsTheWord w i h
    exact hw.symm
  · rintro rfl
    exact decodeOfEncodeIsTheCommand i hwf

/-- The words of ABSORB.B: its row, with the byte in field BYTE (R157). -/
theorem decode_eq_absorbB_iff (w : Word) (b : Byte) :
    decode w = .ok (.absorbB b) ↔ w &&& 0xFFFF00FF#32 = 0x00000002#32 ∧ b = w.extractLsb' 8 8 := by
  rw [decode_eq_ok_iff]
  refine and_congr selects_iff ?_
  rw [Instr.withOperandsOf, Instr.absorbB.injEq, eq_comm]
  rfl

/-- The words of ABSORB.W: its row, with one less than the number of bytes in field NB (R158). -/
theorem decode_eq_absorbW_iff (w : Word) (n : Nat) :
    decode w = .ok (.absorbW n) ↔ w &&& 0xFFFFFFCF#32 = 0x00000003#32 ∧ n = (w.extractLsb' 4 2).toNat + 1 := by
  rw [decode_eq_ok_iff]
  refine and_congr selects_iff ?_
  rw [Instr.withOperandsOf, Instr.absorbW.injEq, eq_comm]
  rfl

/-! ### Acceptance and completion with the whole next state -/

/-- While another command is pending nothing of a command happens (R220; log 11). -/
theorem exec_of_other_pending {s : State} {p : Pending} {i : Instr} (hpend : s.pending = some p) (hne : p.cmd ≠ i) :
    exec i s = .next s := by
  cases i <;>
    simp [exec, execNop, execInit, execAbsorbB, execAbsorbW, execFinalize, State.atMoment, hpend, hne]

/-- With nothing pending, a command that is legal in ACTIVE only is refused in the other lifecycle states (R62). -/
theorem atMoment_refused {s : State} {i : Instr} {c : Cause} {completed : State → State} (hpend : s.pending = none)
    (hlife : s.life ≠ .active) :
    s.atMoment i (fun s => s.acceptInActive i c) completed = s.usageError c (encode i) := by
  simp [State.atMoment, State.acceptInActive, hpend, hlife]

/-- A completed absorb replaces H, count and the buffer by those of the sequencer run to DONE and empties the slot; all
else of the committed state stays (R31). -/
theorem commitAbsorb_eq {s : State} {m : Message} (h : s.seq.run.message = m) :
    s.commitAbsorb = { s with h := m.h, count := m.count, buf := m.buf, pending := none, seq := s.commitAbsorb.seq } := by
  subst h
  rfl

/-- A completed FINALIZE replaces H and the buffer by those of the sequencer run to DONE, goes to FINALIZED and empties
the slot; all else of the committed state stays (R159). -/
theorem commitFinalize_eq {s : State} {m : Message} (h : s.seq.run.message = m) :
    s.commitFinalize
      = { s with h := m.h, buf := m.buf, life := .finalized, pending := none, seq := s.commitFinalize.seq } := by
  subst h
  rfl

/-- An absorb accepted and run to DONE has absorbed the bytes it captured (R142). -/
theorem accept_run_absorb {i : Instr} (hwf : i.wf = true) (hi : IsAbsorb i) (s : State) :
    (s.accept i).seq.run.message = absorbAll s.message (capture i s.dataIn) :=
  run_message_of_absorb (accept_workInv hwf s) (accept_pending s i) hi

/-- FINALIZE accepted and run to DONE has padded the message (R147). -/
theorem accept_run_finalize (s : State) : (s.accept .finalize).seq.run.message = pad s.message :=
  run_message_of_finalize (accept_workInv rfl s) (accept_pending s .finalize) rfl

/-- The bytes of ABSORB.W are the first `n` of the four bytes of DATA_IN (R158). -/
theorem captureBytes_eq (n : Nat) (v : Word) : captureBytes n v
    = [v.extractLsb' 24 8, v.extractLsb' 16 8, v.extractLsb' 8 8, v.extractLsb' 0 8].take n := rfl

/-- Settles O9: INIT is legal in every lifecycle state, and its completion is `commitInit`. -/
theorem initOpensANewMessage : Obligations.InitOpensANewMessage := by
  refine ⟨decode_eq_ok_iff_eq_encode rfl, fun s hpend => ?_⟩
  exact ⟨(s.accept .init).seq, (s.accept .init).commitInit.seq, exec_of_legal hpend (by decide) (.inl rfl),
    exec_pending_init (accept_pending s .init) rfl⟩

/-- Settles O10: outside ACTIVE the acceptance is refused; in ACTIVE the sequencer run to DONE has absorbed the byte. -/
theorem absorbByteAbsorbsItsByte : Obligations.AbsorbByteAbsorbsItsByte := by
  refine ⟨fun b => rfl, decode_eq_absorbB_iff, fun s b hpend hlife => ?_, fun s b hpend hlife => ?_⟩
  · exact congrArg Host.Outcome.next (atMoment_refused hpend hlife)
  · have hi : IsAbsorb (.absorbB b) := .inl ⟨b, rfl⟩
    have hdone := exec_pending_absorb (accept_pending s (.absorbB b)) hi
    have hmsg := commitAbsorb_eq (accept_run_absorb rfl hi s)
    exact ⟨(s.accept (.absorbB b)).seq, _, exec_of_legal hpend (by simp) (.inr hlife),
      hdone.trans (congrArg Host.Outcome.next hmsg)⟩

/-- Settles O11: outside ACTIVE the acceptance is refused; in ACTIVE the sequencer takes the captured bytes at the
acceptance, so its run to DONE does not see a later DATA_IN. -/
theorem absorbWordAbsorbsTheCapturedBytes : Obligations.AbsorbWordAbsorbsTheCapturedBytes := by
  refine ⟨fun n => rfl, decode_eq_absorbW_iff, fun s n _ _ hpend hlife => ?_,
    fun s n bytes h1 h4 hpend hlife hbytes => ?_⟩
  · exact congrArg Host.Outcome.next (atMoment_refused hpend hlife)
  · have hi : IsAbsorb (.absorbW n) := .inr ⟨n, rfl⟩
    obtain rfl : bytes = captureBytes n s.dataIn := hbytes
    have hrun := accept_run_absorb (absorbW_wf_iff.mpr ⟨h1, h4⟩) hi s
    refine ⟨(s.accept (.absorbW n)).seq, (s.accept (.absorbW n)).commitAbsorb.seq,
      exec_of_legal hpend (by simp) (.inr hlife), fun v => ?_⟩
    have hdone := exec_pending_absorb (s := { s.accept (.absorbW n) with dataIn := v })
      (accept_pending s (.absorbW n)) hi
    have hmsg := commitAbsorb_eq (s := { s.accept (.absorbW n) with dataIn := v }) hrun
    exact hdone.trans (congrArg Host.Outcome.next hmsg)

/-- Settles O12: outside ACTIVE the acceptance is refused; in ACTIVE the sequencer run to DONE has padded the message. -/
theorem finalizePadsAndFinalizes : Obligations.FinalizePadsAndFinalizes := by
  refine ⟨decode_eq_ok_iff_eq_encode rfl, fun s hpend hlife => ?_, fun s hpend hlife => ?_⟩
  · exact congrArg Host.Outcome.next (atMoment_refused hpend hlife)
  · have hdone := exec_pending_finalize (accept_pending s .finalize) rfl
    have hmsg := commitFinalize_eq (accept_run_finalize s)
    exact ⟨(s.accept .finalize).seq, _, exec_of_legal hpend (by simp) (.inr hlife),
      hdone.trans (congrArg Host.Outcome.next hmsg)⟩

/-! ### Held writes -/

/-- While a command is pending a step takes no held write; only a reset aborts them (R220, R210). -/
theorem held_of_pending {s t : State} {p : Pending} (hpend : s.pending = some p) (h : Turn s t) :
    s.held <+: t.held ∨ (t.held = [] ∧ t.pending = none ∧ t.life = .idle
      ∧ (s.inReset = true ∨ ∃ m ∈ s.masters, ∃ rest, m.program = .assertReset :: rest)) := by
  cases h with
  | acceptNop _ hnone _ => cases hnone.symm.trans hpend
  | accept _ hnone _ _ _ _ => cases hnone.symm.trans hpend
  | refuse _ hnone _ _ => cases hnone.symm.trans hpend
  | offer _ _ _ => exact .inl (List.prefix_append s.held _)
  | assertReset hm hop => exact .inr ⟨rfl, rfl, rfl, .inr ⟨_, hm, _, hop⟩⟩
  | releaseReset _ _ hres => exact .inr ⟨rfl, rfl, rfl, .inl hres⟩
  | _ => exact .inl (List.prefix_refl s.held)

/-- A step over which the command stays pending takes no held write (R220). -/
theorem held_prefix_of_still_pending {s t : State} {p : Pending} (hpend : s.pending = some p) (hstep : step s = .next t)
    (hpend' : t.pending = some p) : s.held <+: t.held := by
  rcases held_of_pending hpend (turn_of_step hstep) with hheld | ⟨-, hnone, -⟩
  · exact hheld
  · cases hnone.symm.trans hpend'

/-- Settles O8: the acceptance of a held NOP is the removal of its write, and a pending command keeps the held writes. -/
theorem nopOnlyWaitsForThePendingCommand : Obligations.NopOnlyWaitsForThePendingCommand := by
  refine ⟨decode_eq_ok_iff_eq_encode rfl, fun s => rfl, fun s k rest hres hpend hheld => ?_,
    fun s t p => held_prefix_of_still_pending⟩
  rw [step_of_held hres hpend hheld]
  exact acceptTurn_of_decode (decodeOfEncodeIsTheCommand .nop rfl) _

/-- Settles O13: the steps of a pending command keep the held writes, and the committed state but DATA_IN (R31). -/
theorem commandWaitsWhileAnotherIsPending : Obligations.CommandWaitsWhileAnotherIsPending := by
  refine ⟨fun i s p => exec_of_other_pending, fun s t p hres hpend hstep => ?_, fun s t p hpend hstep hpend' => ?_⟩
  · rcases held_of_pending hpend (turn_of_step hstep) with hheld | ⟨hheld, hnone, hidle, hreset⟩
    · exact .inl hheld
    · exact .inr ⟨hheld, hnone, hidle, hreset.resolve_left (by simp [hres])⟩
  · obtain ⟨hh, hcount, hbuf, hlife, herr, hcause, hcmd, -, -⟩ :=
      committedStateIsFixedWhilePending s t p hpend hstep hpend'
    exact ⟨held_prefix_of_still_pending hpend hstep hpend', hh, hcount, hbuf, hlife, herr, hcause, hcmd⟩

/-- Settles O14: the step takes the illegal word off the held writes and raises the usage error. -/
theorem illegalWordIsAUsageError : Obligations.IllegalWordIsAUsageError := by
  intro s k w rest e hres hpend hheld hdec
  rw [step_of_held hres hpend hheld, acceptTurn, hdec]
  rfl

/-! ### The progress of a pending command -/

/-- With a command pending the sequencer moves when no host turn may come before it (R226; log 4). -/
theorem step_eq_sequencerTurn {s : State} {p : Pending} (hres : s.inReset = false) (hpend : s.pending = some p)
    (hturn : s.readyMasters = [] ∨ s.wait = 0) : step s = sequencerTurn p s := by
  simp only [step, nextTurn, hres, hpend]
  exact if_pos hturn

/-- A master that alone can move has the host turn (R72). -/
theorem hostTurn_of_single {s : State} {k : Nat} (h : s.readyMasters = [k]) : hostTurn s = masterTurn k s := by
  simp [hostTurn, h]

/-- Settles O17: the three cases are the sequencer's turn at DONE and before it, and the host turn of one master. -/
theorem stepOfAPendingCommandIsTheSequencersOrAHostTurn :
    Obligations.StepOfAPendingCommandIsTheSequencersOrAHostTurn := by
  refine ⟨fun s p hres hpend hturn hdone => ?_, fun s p hres hpend hturn hdone => ?_,
    fun s p k hres hpend hready hwait => ?_⟩
  · rw [step_eq_sequencerTurn hres hpend hturn, sequencerTurn, if_pos hdone]
  · rw [step_eq_sequencerTurn hres hpend hturn, sequencerTurn, if_neg hdone]
    rfl
  · rw [step_eq_hostTurn_of_pending hres hpend hwait (by simp [hready])]
    exact hostTurn_of_single (s := { s with wait := s.wait - 1 }) hready

/-- A bus operation answers or faults; it does not refuse (R190). -/
theorem performOp_next_or_fault (k : Nat) (m : Master) (op : HostOp) (rest : List HostOp) (s : State) :
    (∃ t, performOp k m op rest s = .next t) ∨ ∃ f, performOp k m op rest s = .fault f := by
  cases op with
  | write off width value => cases h : regAt off width <;> simp [performOp, h]
  | read off width dst => cases h : regAt off width <;> simp [performOp, h]
  | poll off mask value => cases h : regAt off 4 <;> simp [performOp, h]
  | assertReset => exact .inl ⟨_, rfl⟩
  | releaseReset => exact .inl ⟨_, rfl⟩

/-- While a command is pending the reset input is not asserted (R210). -/
theorem released_of_pending {s : State} {p : Pending} (hinv : s.Inv) (hpend : s.pending = some p) :
    s.inReset = false := by
  obtain ⟨-, -, -, -, -, -, -, hreset⟩ := hinv
  by_contra hres
  obtain ⟨-, hnone, -⟩ := hreset (by simpa using hres)
  cases hnone.symm.trans hpend

/-- The completion of a pending command empties the slot (R141). -/
theorem exec_pending_completes {s : State} {p : Pending} (hwf : p.wf = true) (hpend : s.pending = some p) :
    ∃ t, exec p.cmd s = .next t ∧ t.pending = none := by
  cases hcmd : p.cmd with
  | nop => simp [Pending.wf, hcmd] at hwf
  | init => exact ⟨_, exec_pending_init hpend hcmd, rfl⟩
  | absorbB b => exact ⟨_, hcmd ▸ exec_pending_absorb hpend (.inl ⟨b, hcmd⟩), rfl⟩
  | absorbW n => exact ⟨_, hcmd ▸ exec_pending_absorb hpend (.inr ⟨n, hcmd⟩), rfl⟩
  | finalize => exact ⟨_, exec_pending_finalize hpend hcmd, rfl⟩

/-- The step at `u` is the last with command `p` pending: its completion at DONE, the assertion of the reset input, or a
fault (R141, R210, R190). -/
def State.EndsPending (u : State) (p : Pending) : Prop :=
  (∃ t : State, u.seq.phase = .done ∧ step u = exec p.cmd u ∧ exec p.cmd u = .next t ∧ t.pending = none)
  ∨ (∃ t : State, (∃ m ∈ u.masters, ∃ rest, m.program = .assertReset :: rest) ∧ step u = .next t ∧ t.inReset = true
      ∧ t.pending = none)
  ∨ ∃ f : Fault, step u = .fault f

/-- From `s` a run with `p` pending all along comes to the last step of `p`. -/
def State.ReachesEnd (s : State) (p : Pending) : Prop :=
  ∃ (n : Nat) (u : State), Sys2Proof.core.run n s = .next u
    ∧ (∀ k ≤ n, ∃ v : State, Sys2Proof.core.run k s = .next v ∧ v.pending = some p) ∧ u.EndsPending p

theorem reachesEnd_of_endsPending {s : State} {p : Pending} (hpend : s.pending = some p) (h : s.EndsPending p) :
    s.ReachesEnd p := by
  refine ⟨0, s, rfl, fun k hk => ?_, h⟩
  obtain rfl := Nat.le_zero.mp hk
  exact ⟨s, rfl, hpend⟩

theorem reachesEnd_of_step {s t : State} {p : Pending} (hpend : s.pending = some p) (hstep : step s = .next t)
    (h : t.ReachesEnd p) : s.ReachesEnd p := by
  obtain ⟨n, u, hrun, hall, hend⟩ := h
  refine ⟨n + 1, u, (core_run_next hstep).trans hrun, fun k hk => ?_, hend⟩
  cases k with
  | zero => exact ⟨s, rfl, hpend⟩
  | succ k =>
    obtain ⟨v, hv, hvp⟩ := hall k (Nat.le_of_succ_le_succ hk)
    exact ⟨v, (core_run_next hstep).trans hv, hvp⟩

/-- What is left before the last step of a pending command: internal steps, and host turns before the next of them. -/
def State.timeLeft (s : State) : Nat ×ₗ Nat := toLex (s.seq.stepsLeft, s.wait)

/-- A master's bus operation is a last step of the pending command, or leaves it pending with the sequencer where it is
and the counter of host turns as it was set (R220, R226). -/
theorem performOp_while_pending {s : State} {p : Pending} {k w u : Nat} {m : Master} {op : HostOp}
    {rest : List HostOp} (hres : s.inReset = false) (hpend : s.pending = some p) (hm : m ∈ s.masters)
    (hop : m.program = op :: rest) (he : step s = performOp k m op rest { s with wait := w, turn := u }) :
    s.EndsPending p ∨ ∃ t, step s = .next t ∧ t.pending = some p ∧ t.seq = s.seq ∧ t.wait = w := by
  rcases performOp_next_or_fault k m op rest { s with wait := w, turn := u } with ⟨t, ht⟩ | ⟨f, hf⟩
  · have hstep := he.trans ht
    rcases performOp_cases ht with ⟨v, -, -, rfl⟩ | ⟨v, -, -, rfl⟩ | ⟨m', rfl, -⟩ | rfl | ⟨rfl, rfl⟩ | ⟨-, hres', -⟩
    · exact .inr ⟨_, hstep, hpend, rfl, rfl⟩
    · exact .inr ⟨_, hstep, hpend, rfl, rfl⟩
    · exact .inr ⟨_, hstep, hpend, rfl, rfl⟩
    · exact .inr ⟨_, hstep, hpend, rfl, rfl⟩
    · exact .inl (.inr (.inl ⟨_, ⟨m, hm, rest, hop⟩, hstep, rfl, rfl⟩))
    · cases hres.symm.trans hres'
  · exact .inl (.inr (.inr ⟨f, he.trans hf⟩))

/-- A step of a pending command is its last or leaves it pending with less time left (R141, R226). -/
theorem endsPending_or_progress {s : State} {p : Pending} (hinv : s.Inv) (hpend : s.pending = some p) :
    s.EndsPending p ∨ ∃ t, step s = .next t ∧ t.pending = some p ∧ t.timeLeft < s.timeLeft := by
  have hres := released_of_pending hinv hpend
  obtain ⟨hwf, -, hfits⟩ := slot_of_inv hinv hpend
  rcases step_cases s with ⟨hw, rest, -, hnone, -⟩ | ⟨p', -, hp', hdone, he⟩ | ⟨p', -, -, hdone, he⟩
    | ⟨k, m, op, rest, w, u, hm, hop, -, -, hw, he⟩ | ⟨hidle, -⟩
  · cases hnone.symm.trans hpend
  · obtain rfl : p' = p := Option.some.inj (hp'.symm.trans hpend)
    obtain ⟨t, ht, hnone⟩ := exec_pending_completes hwf hpend
    exact .inl (.inl ⟨t, hdone, he, ht, hnone⟩)
  · obtain ⟨-, -, -, ⟨ht, -⟩, -⟩ := hinv
    have hless : s.seq.step.stepsLeft < s.seq.stepsLeft := by
      rw [stepsLeft_step hfits ht hdone]
      exact Nat.lt_succ_self _
    exact .inr ⟨_, he, hpend, Prod.Lex.toLex_lt_toLex.mpr (.inl hless)⟩
  · refine (performOp_while_pending hres hpend (List.mem_of_getElem? hm) hop he).imp_right ?_
    rintro ⟨t, hstep, hpend', hseq, hwait⟩
    refine ⟨t, hstep, hpend', Prod.Lex.toLex_lt_toLex.mpr (.inr ⟨congrArg Sequencer.stepsLeft hseq, ?_⟩)⟩
    exact hwait.trans_lt (hw hres (by simp [hpend]))
  · cases (hidle hres).1.symm.trans hpend

/-- A pending command comes to its last step, by induction on the time left. -/
theorem reachesEnd_of_inv {s : State} {p : Pending} (hinv : s.Inv) (hpend : s.pending = some p) : s.ReachesEnd p := by
  induction htime : s.timeLeft using WellFoundedLT.induction generalizing s with
  | ind time ih =>
    rcases endsPending_or_progress hinv hpend with hend | ⟨t, hstep, hpend', hless⟩
    · exact reachesEnd_of_endsPending hpend hend
    · exact reachesEnd_of_step hpend hstep
        (ih t.timeLeft (htime ▸ hless) (everyStepKeepsTheInvariant s t hinv hstep) hpend' rfl)

/-- Settles O32: each step of a pending command is its last or leaves less time. -/
theorem everyPendingCommandCompletes : Obligations.EveryPendingCommandCompletes := fun _ _ => reachesEnd_of_inv

/-! ### Absorbing and padding byte by byte -/

/-- Settles O39: the byte is put at the fill position, and the new fill position 0 is what compresses. -/
theorem absorbingAByteWritesItAndCompressesFullBlocks : Obligations.AbsorbingAByteWritesItAndCompressesFullBlocks := by
  intro m b
  refine ⟨nth_put_same m.buf _ b (fill_lt m.count), fun j hj => nth_put_ne m.buf b (Ne.symm hj), ?_, fun h => ?_,
    fun h => ?_⟩
  · exact BitVec.toNat_add m.count 1#64
  · exact if_pos h
  · exact if_neg h

theorem lengthField_toNat (len : Count) : (lengthField len).toNat = 8 * len.toNat % 2 ^ 64 := BitVec.toNat_mul 8#64 len

/-- Byte `k` of a count, most significant first, is 8 of its bits (R10). -/
theorem be64Byte_eq_extractLsb' (v : Count) (k : Nat) : be64Byte v k = v.extractLsb' (56 - 8 * k) 8 := rfl

/-- The block that the padding begins: the live bytes, 0x80, and zeros up to `stop` (R147). -/
def Message.padTo (m : Message) (stop : Nat) : Vector Byte 64 :=
  zeroFill (put m.buf (fill m.count) 0x80#8) (fill m.count + 1) stop

/-- The bytes of the block that the padding begins; no stale byte is left below `stop` (R147). -/
theorem nth_padTo (m : Message) {stop j : Nat} (hstop : stop ≤ 64) (hj : j < stop) :
    nth (m.padTo stop) j = if j < fill m.count then nth m.buf j else if j = fill m.count then 0x80#8 else 0#8 := by
  have hlt := fill_lt m.count
  rw [Message.padTo, nth_zeroFill _ _ _ _ hstop, nth_put]
  rcases Nat.lt_trichotomy j (fill m.count) with h | h | h
  · rw [if_neg (by omega), if_neg (by omega), if_pos h]
  · rw [if_neg (by omega), if_pos (by omega), if_neg (by omega), if_pos h]
  · rw [if_pos (by omega), if_neg (by omega), if_neg (by omega)]

/-- The padding in one block (R150). -/
theorem pad_eq_one_block {m : Message} (h : fill m.count ≤ 55) :
    pad m = ⟨compress m.h (putLength (m.padTo 56) m.count), m.count, putLength (m.padTo 56) m.count⟩ :=
  pad_one_block m h

/-- The padding in two blocks (R150). -/
theorem pad_eq_two_blocks {m : Message} (h : 56 ≤ fill m.count) :
    pad m = ⟨compress (compress m.h (m.padTo 64)) (putLength (zeroFill (m.padTo 64) 0 56) m.count), m.count,
      putLength (zeroFill (m.padTo 64) 0 56) m.count⟩ :=
  pad_two_blocks m h

/-- Both paddings put the length field in the last block (R149). -/
theorem pad_buf_eq_putLength (m : Message) : ∃ buf, (pad m).buf = putLength buf m.count := by
  rcases le_or_gt (fill m.count) 55 with h | h
  · rw [pad_eq_one_block h]
    exact ⟨_, rfl⟩
  · rw [pad_eq_two_blocks h]
    exact ⟨_, rfl⟩

theorem nth_putLength_of_lt (buf : Vector Byte 64) (len : Count) {j : Nat} (h : j < 56) :
    nth (putLength buf len) j = nth buf j := by
  rw [nth_putLength, if_neg (by omega)]

/-- The last eight bytes of the padding are the length field (R149). -/
theorem nth_pad_length (m : Message) {k : Nat} (hk : k < 8) :
    nth (pad m).buf (56 + k) = (lengthField m.count).extractLsb' (56 - 8 * k) 8 := by
  obtain ⟨buf, hbuf⟩ := pad_buf_eq_putLength m
  rw [hbuf, nth_putLength, if_pos (by omega), Nat.add_sub_cancel_left, be64Byte_eq_extractLsb']

/-- The padding does not change the count (R151). -/
theorem pad_count (m : Message) : (pad m).count = m.count := by
  rcases le_or_gt (fill m.count) 55 with h | h
  · rw [pad_eq_one_block h]
  · rw [pad_eq_two_blocks h]

/-- Settles O40: the length field is a product modulo 2^64, and the padding ends with it. -/
theorem paddingEndsWithTheLengthField : Obligations.PaddingEndsWithTheLengthField := by
  refine ⟨lengthField_toNat, fun len hlen => ?_, fun m k => nth_pad_length m, by decide, by decide, by decide⟩
  rw [lengthField_toNat]
  exact Nat.mod_eq_of_lt (by omega)

/-- Settles O41: the blocks of the one and of the two compressions, byte by byte. -/
theorem paddingRunsOneOrTwoCompressions : Obligations.PaddingRunsOneOrTwoCompressions := by
  intro m
  refine ⟨pad_count m, fun k => nth_pad_length m, fun (h : fill m.count ≤ 55) => ?_,
    fun (h : 56 ≤ fill m.count) => ?_⟩
  · rw [pad_eq_one_block h]
    refine ⟨fun j hj => ?_, rfl⟩
    exact (nth_putLength_of_lt _ _ hj).trans (nth_padTo m (by decide) hj)
  · rw [pad_eq_two_blocks h]
    refine ⟨fun j hj => ?_, m.padTo 64, fun j hj => nth_padTo m (Nat.le_refl 64) hj, rfl⟩
    rw [nth_putLength_of_lt _ _ hj, nth_zeroFill _ _ _ _ (by decide), if_pos ⟨Nat.zero_le j, hj⟩]

/-! ### Stale buffer bytes (R146) -/

/-- Two messages agree but for the buffer bytes at and beyond the fill position. -/
def Message.SameLive (m m' : Message) : Prop :=
  m.h = m'.h ∧ m.count = m'.count ∧ ∀ j < fill m.count, nth m.buf j = nth m'.buf j

/-- A byte put at the fill position leaves the buffers equal up to and with it. -/
theorem nth_put_fill_of_sameLive {m m' : Message} (h : m.SameLive m') (b : Byte) {j : Nat} (hj : j ≤ fill m.count) :
    nth (put m.buf (fill m.count) b) j = nth (put m'.buf (fill m'.count) b) j := by
  obtain ⟨-, hcount, hlive⟩ := h
  rw [← hcount, nth_put, nth_put]
  split_ifs with heq
  · rfl
  · have := fill_lt m.count
    exact hlive j (by omega)

/-- Absorbing a byte does not read a stale byte: a block is compressed only when it is all live (R142). -/
theorem absorb_sameLive {m m' : Message} (h : m.SameLive m') (b : Byte) : (absorb m b).SameLive (absorb m' b) := by
  have hbuf : ∀ j ≤ fill m.count, nth (absorb m b).buf j = nth (absorb m' b).buf j :=
    fun j => nth_put_fill_of_sameLive h b
  obtain ⟨hh, hcount, -⟩ := h
  have hfill : fill (m.count + 1#64) = (fill m.count + 1) % 64 := fill_succ m.count
  have hlt := fill_lt m.count
  refine ⟨?_, congrArg (· + 1#64) hcount, fun j hj => hbuf j ?_⟩
  · by_cases hfull : fill (m.count + 1#64) = 0
    · have hall : (absorb m b).buf = (absorb m' b).buf := vector_ext_nth fun j hj => hbuf j (by omega)
      calc (absorb m b).h = compress m.h (absorb m b).buf := if_pos hfull
        _ = compress m'.h (absorb m' b).buf := by rw [hh, hall]
        _ = (absorb m' b).h := (if_pos (hcount ▸ hfull)).symm
    · calc (absorb m b).h = m.h := if_neg hfull
        _ = m'.h := hh
        _ = (absorb m' b).h := (if_neg (hcount ▸ hfull)).symm
  · have : j < fill (m.count + 1#64) := hj
    omega

theorem absorbAll_sameLive {m m' : Message} (h : m.SameLive m') (bytes : List Byte) :
    (absorbAll m bytes).SameLive (absorbAll m' bytes) := by
  induction bytes generalizing m m' with
  | nil => exact h
  | cons b bytes ih => exact ih (absorb_sameLive h b)

/-- The block that the padding begins has no stale byte (R146, R147). -/
theorem nth_padTo_of_sameLive {m m' : Message} (h : m.SameLive m') {stop j : Nat} (hstop : stop ≤ 64) (hj : j < stop) :
    nth (m.padTo stop) j = nth (m'.padTo stop) j := by
  obtain ⟨-, hcount, hlive⟩ := h
  rw [nth_padTo m hstop hj, nth_padTo m' hstop hj, ← hcount]
  split_ifs with hj'
  · exact hlive j hj'
  · rfl
  · rfl

/-- The last block depends on its first 56 bytes and the length only. -/
theorem putLength_congr {buf buf' : Vector Byte 64} (len : Count) (h : ∀ j < 56, nth buf j = nth buf' j) :
    putLength buf len = putLength buf' len := by
  refine vector_ext_nth fun j hj => ?_
  rw [nth_putLength, nth_putLength]
  split_ifs with hlen
  · rfl
  · exact h j (by omega)

/-- The padding does not read a stale byte (R146). -/
theorem pad_h_of_sameLive {m m' : Message} (h : m.SameLive m') : (pad m).h = (pad m').h := by
  have hpadTo {stop j : Nat} (hstop : stop ≤ 64) (hj : j < stop) := nth_padTo_of_sameLive h hstop hj
  obtain ⟨hh, hcount, -⟩ := h
  rcases le_or_gt (fill m.count) 55 with hone | htwo
  · rw [pad_eq_one_block hone, pad_eq_one_block (hcount ▸ hone), hh, ← hcount,
      putLength_congr m.count fun j hj => hpadTo (by decide) hj]
  · have hfirst : m.padTo 64 = m'.padTo 64 := vector_ext_nth fun j hj => hpadTo (Nat.le_refl 64) hj
    rw [pad_eq_two_blocks htwo, pad_eq_two_blocks (hcount ▸ htwo), hh, hfirst, hcount]

/-- Settles O42: absorbs keep messages equal but for stale bytes, and such messages have the same H and padding. -/
theorem staleBufferBytesAreNeverCompressed : Obligations.StaleBufferBytesAreNeverCompressed := by
  intro m buf' bytes hlive
  have hstart : ({ m with buf := buf' } : Message).SameLive m := ⟨rfl, rfl, hlive⟩
  have hend := absorbAll_sameLive hstart bytes
  exact ⟨hend.1, pad_h_of_sameLive hend⟩

/-! ### Commands run one after another (R145, R161) -/

/-- An absorb run whole in ACTIVE is the `absorb` calls on the bytes it captures; LIFE and the error record stay (R142). -/
theorem runCommand_absorb_message {s : State} {i : Instr} (hwf : i.wf = true) (hi : IsAbsorb i)
    (hlife : s.life = .active) (hpend : s.pending = none) :
    ∃ t, runCommand i s = .next t ∧ t.life = .active ∧ t.pending = none ∧ t.err = s.err
      ∧ t.message = absorbAll s.message (capture i s.dataIn) := by
  have hnop : i ≠ .nop := by rcases hi with ⟨b, rfl⟩ | ⟨n, rfl⟩ <;> simp
  have hrun := runCommand_of_accept (exec_of_legal hpend hnop (.inr hlife))
  exact ⟨(s.accept i).commitAbsorb, hrun.trans (exec_pending_absorb (accept_pending s i) hi), hlife, rfl, rfl,
    accept_run_absorb hwf hi s⟩

/-- A chunk run in ACTIVE is the `absorb` calls on its bytes (R145). -/
theorem chunk_run_message {s : State} {c : Chunk} (hwf : c.wf = true) (hlife : s.life = .active)
    (hpend : s.pending = none) :
    ∃ t, c.run s = .next t ∧ t.life = .active ∧ t.pending = none ∧ t.err = s.err
      ∧ t.message = absorbAll s.message c.bytes := by
  cases c with
  | byte b => exact runCommand_absorb_message rfl (.inl ⟨b, rfl⟩) hlife hpend
  | word n v =>
    exact runCommand_absorb_message (s := { s with dataIn := v }) (i := .absorbW n) hwf (.inr ⟨n, rfl⟩) hlife hpend

theorem absorbAll_append (m : Message) (bytes more : List Byte) :
    absorbAll m (bytes ++ more) = absorbAll (absorbAll m bytes) more :=
  List.foldl_append

/-- Chunks run in ACTIVE are the `absorb` calls on their bytes in order, however they are cut (R145). -/
theorem runChunks_message {cs : List Chunk} {s : State} (hwf : ∀ c ∈ cs, c.wf = true) (hlife : s.life = .active)
    (hpend : s.pending = none) :
    ∃ t, runChunks cs s = .next t ∧ t.life = .active ∧ t.pending = none ∧ t.err = s.err
      ∧ t.message = absorbAll s.message (cs.flatMap Chunk.bytes) := by
  induction cs generalizing s with
  | nil => exact ⟨s, rfl, hlife, hpend, rfl, rfl⟩
  | cons c cs ih =>
    obtain ⟨hc, hcs⟩ := List.forall_mem_cons.mp hwf
    obtain ⟨t, hrun, hlife', hpend', herr, hmsg⟩ := chunk_run_message hc hlife hpend
    obtain ⟨u, hrun', hlife'', hpend'', herr', hmsg'⟩ := ih hcs hlife' hpend'
    refine ⟨u, ?_, hlife'', hpend'', herr'.trans herr, ?_⟩
    · rw [runChunks, hrun]
      exact hrun'
    · rw [hmsg', hmsg, List.flatMap_cons, absorbAll_append]

/-- FINALIZE run whole in ACTIVE leaves the padded H in FINALIZED; count and the error record stay (R159, R151). -/
theorem runCommand_finalize {s : State} (hlife : s.life = .active) (hpend : s.pending = none) :
    ∃ t, runCommand .finalize s = .next t ∧ t.life = .finalized ∧ t.pending = none ∧ t.err = s.err
      ∧ t.count = s.count ∧ t.h = (pad s.message).h := by
  have hrun := runCommand_of_accept (exec_of_legal (i := .finalize) hpend (by decide) (.inr hlife))
  exact ⟨(s.accept .finalize).commitFinalize, hrun.trans (exec_pending_finalize (accept_pending s .finalize) rfl), rfl,
    rfl, rfl, rfl, congrArg Message.h (accept_run_finalize s)⟩

/-- In FINALIZED the DIGEST registers read H (R58). -/
theorem readReg_digest_of_finalized {s : State} (h : s.life = .finalized) (i : Fin 8) :
    s.readReg (.digest i) = nth s.h i.val :=
  (digest_of_finalized h i.isLt).trans (nth_eq_getElem s.h i.isLt).symm

/-- Settles O43: both runs are the same `absorb` calls on the message of `s`. -/
theorem digestDoesNotDependOnChunking : Obligations.DigestDoesNotDependOnChunking := by
  intro s cs cs' hpend hlife hwf hwf' hbytes
  obtain ⟨t, hrun, htlife, htpend, -, htmsg⟩ := runChunks_message hwf hlife hpend
  obtain ⟨t', hrun', htlife', htpend', -, htmsg'⟩ := runChunks_message hwf' hlife hpend
  obtain ⟨u, hfin, hulife, -, -, -, huh⟩ := runCommand_finalize htlife htpend
  obtain ⟨u', hfin', hulife', -, -, -, huh'⟩ := runCommand_finalize htlife' htpend'
  have hmsg : t.message = t'.message := by rw [htmsg, htmsg', hbytes]
  have hbuf : t.buf = t'.buf := congrArg Message.buf hmsg
  refine ⟨t, t', u, u', hrun, hrun', congrArg Message.h hmsg, congrArg Message.count hmsg,
    fun j _ => congrArg (nth · j) hbuf, htlife, htpend, htlife', htpend', hfin, hfin', hulife, hulife', fun i => ?_⟩
  rw [readReg_digest_of_finalized hulife, readReg_digest_of_finalized hulife', huh, huh', hmsg]

/-- INIT run whole is its acceptance and its completion (R156). -/
theorem runCommand_init_eq {s : State} (hpend : s.pending = none) :
    runCommand .init s = .next (s.accept .init).commitInit :=
  (runCommand_of_accept (exec_of_legal hpend (by decide) (.inl rfl))).trans
    (exec_pending_init (accept_pending s .init) rfl)

/-- Settles O44: INIT empties the message, the chunks append its bytes, and FINALIZE pads what they hash to. -/
theorem digestRegistersHoldTheSha256OfTheMessage : Obligations.DigestRegistersHoldTheSha256OfTheMessage := by
  rintro s cs bytes hpend hwf rfl -
  have hinit := runCommand_init_eq hpend
  obtain ⟨u, hrun, hulife, hupend, huerr, humsg⟩ := runChunks_message (s := (s.accept .init).commitInit) hwf rfl rfl
  obtain ⟨v, hfin, hvlife, hvpend, hverr, hvcount, hvh⟩ := runCommand_finalize hulife hupend
  have hashes : u.message.hashes (cs.flatMap Chunk.bytes) := humsg ▸ hashes_absorbAll (hashes_nil s.buf) _
  refine ⟨v, ?_, hvlife, hvpend, hverr.trans huerr, hvcount.trans hashes.1, fun i => ?_⟩
  · rw [runDigest, hinit, Result.andThen, hrun]
    exact hfin
  · rw [readReg_digest_of_finalized hvlife, hvh, pad_h_of_hashes hashes]

end Sys2Proof.Machine
end

section
/-! SUPPORT and PROOFS. The statements on exceptions (spec/60_exceptions.md): what a refused word leaves in the error
record, which bus access faults, and how long a recorded error stays. -/
namespace Sys2Proof.Machine

/-! ### Refused words (R182 to R184) -/

/-- An illegal word is refused before any command is looked at (R184). -/
theorem acceptTurn_of_illegal {w : Word} {e : Illegal} (hdec : decode w = .error e) (s : State) :
    acceptTurn w s = .next (s.drawWait.usageError .illegalCmd w) := by
  simp only [acceptTurn, hdec]

/-- A command that its own acceptance refuses records the written word, which is the command's own word (R84, R182;
log 14). -/
theorem acceptTurn_of_refused {w : Word} {i : Instr} {c : Cause} {s : State} (hdec : decode w = .ok i)
    (hexec : exec i s.drawWait = .next (s.drawWait.usageError c (encode i))) :
    acceptTurn w s = .next (s.drawWait.usageError c w) := by
  obtain ⟨-, hword⟩ := encodeOfDecodeIsTheWord w i hdec
  rw [acceptTurn_of_decode hdec, hexec, hword]

/-- With nothing pending, ABSORB.B is refused outside ACTIVE (R157, R183). -/
theorem exec_absorbB_refused {s : State} {b : Byte} (hpend : s.pending = none) (hlife : s.life ≠ .active) :
    exec (.absorbB b) s = .next (s.usageError .absorbNotActive (encode (.absorbB b))) :=
  congrArg Host.Outcome.next (atMoment_refused hpend hlife)

/-- With nothing pending, ABSORB.W is refused outside ACTIVE (R158, R183). -/
theorem exec_absorbW_refused {s : State} {n : Nat} (hpend : s.pending = none) (hlife : s.life ≠ .active) :
    exec (.absorbW n) s = .next (s.usageError .absorbNotActive (encode (.absorbW n))) :=
  congrArg Host.Outcome.next (atMoment_refused hpend hlife)

/-- With nothing pending, FINALIZE is refused outside ACTIVE (R159, R183). -/
theorem exec_finalize_refused {s : State} (hpend : s.pending = none) (hlife : s.life ≠ .active) :
    exec .finalize s = .next (s.usageError .finalizeNotActive (encode .finalize)) :=
  congrArg Host.Outcome.next (atMoment_refused hpend hlife)

/-- Settles O15: each refused form raises its usage error at the acceptance, which takes the word off the held writes
and draws the free number of host turns. -/
theorem refusedCommandChangesTheErrorRecordOnly : Obligations.RefusedCommandChangesTheErrorRecordOnly := by
  intro s k w rest c hres hpend hheld hrefused
  have hturn : acceptTurn w { s with held := rest }
      = .next (({ s with held := rest } : State).drawWait.usageError c w) := by
    rcases hrefused with ⟨rfl, e, hdec⟩ | ⟨rfl, hlife, b, hdec⟩ | ⟨rfl, hlife, n, hdec⟩ | ⟨rfl, hlife, hdec⟩
    · exact acceptTurn_of_illegal hdec _
    · exact acceptTurn_of_refused hdec (exec_absorbB_refused hpend hlife)
    · exact acceptTurn_of_refused hdec (exec_absorbW_refused hpend hlife)
    · exact acceptTurn_of_refused hdec (exec_finalize_refused hpend hlife)
  rw [step_of_held hres hpend hheld, hturn]
  rfl

/-! ### Bus errors (R190, R199) -/

/-- The operation is a bus access of `width` bytes at `off`; a poll reads 32 bits (R90). -/
def HostOp.Accesses (op : HostOp) (off : BitVec 6) (width : Nat) : Prop :=
  (∃ v, op = .write off width v) ∨ (∃ d, op = .read off width d) ∨ (width = 4 ∧ ∃ mask v, op = .poll off mask v)

/-- An access that reaches no register is of another width than 4 or at no multiple of 4 (R52). -/
theorem bad_of_regAt_eq_none {off : BitVec 6} {width : Nat} (h : regAt off width = none) :
    width ≠ 4 ∨ off.toNat % 4 ≠ 0 := by
  by_contra hgood
  obtain ⟨rfl, hal⟩ : width = 4 ∧ off.toNat % 4 = 0 := by simpa using hgood
  cases (regAt_aligned hal).symm.trans h

theorem performOp_poll_fault (k : Nat) (m : Master) (rest : List HostOp) (s : State) {off : BitVec 6}
    (h : regAt off 4 = none) (mask v : Word) :
    performOp k m (.poll off mask v) rest s = .fault (.busError off 4) := by
  simp [performOp, h]

/-- A bus operation answers a next state, or is an access that reaches no register and faults. -/
theorem performOp_next_or_busError (k : Nat) (m : Master) (op : HostOp) (rest : List HostOp) (s : State) :
    (∃ t, performOp k m op rest s = .next t)
    ∨ ∃ off width, op.Accesses off width ∧ regAt off width = none
        ∧ performOp k m op rest s = .fault (.busError off width) := by
  cases op with
  | write off width v =>
    cases hreg : regAt off width with
    | none => exact .inr ⟨off, width, .inl ⟨v, rfl⟩, hreg, performOp_write_fault k m rest s hreg v⟩
    | some r => exact .inl ⟨_, performOp_write k m rest s hreg v⟩
  | read off width dst =>
    cases hreg : regAt off width with
    | none => exact .inr ⟨off, width, .inr (.inl ⟨dst, rfl⟩), hreg, performOp_read_fault k m rest s hreg dst⟩
    | some r => exact .inl ⟨_, performOp_read k m rest s hreg dst⟩
  | poll off mask v =>
    cases hreg : regAt off 4 with
    | none => exact .inr ⟨off, 4, .inr (.inr ⟨rfl, mask, v, rfl⟩), hreg, performOp_poll_fault k m rest s hreg mask v⟩
    | some r => exact .inl ⟨_, performOp_poll k m rest s hreg mask v⟩
  | assertReset => exact .inl ⟨_, rfl⟩
  | releaseReset => exact .inl ⟨_, rfl⟩

/-- The acceptance of a word, legal or not, answers a next state (R188). -/
theorem acceptTurn_next (w : Word) (s : State) : ∃ t, acceptTurn w s = .next t := by
  cases hdec : decode w with
  | error e => exact ⟨_, acceptTurn_of_illegal hdec s⟩
  | ok i =>
    rw [acceptTurn_of_decode hdec]
    exact exec_next i s.drawWait

/-- A step answers a next state, or is a master's access that reaches no register and faults. -/
theorem step_next_or_busError (s : State) :
    (∃ t, step s = .next t)
    ∨ ∃ off width, (∃ m ∈ s.masters, ∃ op rest, m.program = op :: rest ∧ op.Accesses off width)
        ∧ regAt off width = none ∧ step s = .fault (.busError off width) := by
  rcases step_cases s with ⟨hw, rest, -, -, -, he⟩ | ⟨p, -, -, -, he⟩ | ⟨p, -, -, -, he⟩
    | ⟨k, m, op, rest, w, u, hm, hop, -, -, -, he⟩ | ⟨-, he⟩ <;> rw [he]
  · exact .inl (acceptTurn_next hw.word _)
  · exact .inl (exec_next p.cmd s)
  · exact .inl ⟨_, rfl⟩
  · rcases performOp_next_or_busError k m op rest { s with wait := w, turn := u } with
      hnext | ⟨off, width, hacc, hreg, hfault⟩
    · exact .inl hnext
    · exact .inr ⟨off, width, ⟨m, List.mem_of_getElem? hm, op, rest, hop, hacc⟩, hreg, hfault⟩
  · exact .inl ⟨s, rfl⟩

/-- Settles O20: a step that answers no next state is an access that reaches no register. -/
theorem onlyABadBusAccessFaults : Obligations.OnlyABadBusAccessFaults := by
  refine ⟨fun s r hrefused => ?_, fun s off width hfault => ?_⟩
  · rcases step_next_or_busError s with ⟨t, he⟩ | ⟨off, width, -, -, he⟩ <;> cases hrefused.symm.trans he
  · rcases step_next_or_busError s with ⟨t, he⟩ | ⟨off', width', hmaster, hreg, he⟩ <;> cases hfault.symm.trans he
    exact ⟨bad_of_regAt_eq_none hreg, hmaster⟩

/-! ### The life of a recorded error (R187) -/

/-- While the reset input is asserted no error is recorded (R210). -/
theorem err_of_inReset {s : State} (h : s.Inv) (hres : s.inReset = true) : s.err = false := by
  obtain ⟨-, -, -, -, -, -, -, hreset⟩ := h
  obtain ⟨-, -, -, herr, -⟩ := hreset hres
  exact herr

/-- A usage error keeps the cause recorded first (R182). -/
theorem usageError_cause_of_err {s : State} (h : s.err = true) (c : Cause) (w : Word) :
    (s.usageError c w).cause = s.cause := if_pos h

/-- A usage error keeps the word recorded first (R182). -/
theorem usageError_errCmd_of_err {s : State} (h : s.err = true) (c : Cause) (w : Word) :
    (s.usageError c w).errCmd = s.errCmd := if_pos h

/-- Settles O24: a refusal keeps the first error, and only INIT's completion and the assertion of reset clear the
record; a release finds none. -/
theorem errorRecordStaysUntilInitOrReset : Obligations.ErrorRecordStaysUntilInitOrReset := by
  intro s t hinv herr hstep
  cases turn_of_step hstep with
  | @refuse _ _ c w => exact .inl ⟨rfl, usageError_cause_of_err herr c w, usageError_errCmd_of_err herr c w⟩
  | completeInit _ hpend hdone hcmd =>
    obtain ⟨hwf, -⟩ := slot_of_inv hinv hpend
    exact .inr (.inl ⟨hpend.trans (congrArg some (eq_of_cmd_init hwf hcmd)), hdone, rfl, rfl, rfl⟩)
  | assertReset hm hop => exact .inr (.inr ⟨rfl, rfl, rfl, _, hm, _, hop⟩)
  | releaseReset _ _ hres => exact absurd (herr.symm.trans (err_of_inReset hinv hres)) (by decide)
  | _ => exact .inl ⟨herr, rfl, rfl⟩

end Sys2Proof.Machine
end

section
/-! SUPPORT and PROOFS. The statements on reset and hazards (spec/70_reset_and_hazards.md): the number of internal steps
of a command, completions and DATA_IN, the reset values, and the machine that waits for the host. -/
namespace Sys2Proof.Machine

/-! ### The number of internal steps (R227) -/

/-- The sequencer is on the way of an absorb or of FINALIZE (R32). -/
def Sequencer.OnTheWay (q : Sequencer) : Prop := q.inAbsorb = true ∨ q.inPadding = true

theorem onTheWay_step {q : Sequencer} (h : q.OnTheWay) : q.step.OnTheWay :=
  h.imp (fun ha => (inAbsorb_step ha).1) fun hp => (inPadding_step hp).1

/-- PAD_ZERO writes below the length field (R147). -/
theorem p_lt_of_padZero {q : Sequencer} (h : q.OnTheWay) (hp : q.phase = .padZero) : q.p < 56 := by
  rcases h with h | h
  · simp [Sequencer.inAbsorb, hp] at h
  · simpa [Sequencer.inPadding, hp] using h

/-- PAD_80 writes at the fill position, which is in the block (R147). -/
theorem p_lt_of_pad80 {q : Sequencer} (h : q.OnTheWay) (hp : q.phase = .pad80) : q.p < 64 := by
  rcases h with h | h
  · simp [Sequencer.inAbsorb, hp] at h
  · have hcursor : q.p = fill q.workCount := by simpa [Sequencer.inPadding, hp] using h
    exact hcursor.trans_lt (fill_lt q.workCount)

/-- With no byte to come an absorb has no step left. -/
theorem absorbSteps_zero (count : Count) : absorbSteps (fill count) 0 = 0 := by
  have := fill_lt count
  unfold absorbSteps
  omega

/-- A step of the absorb path takes at most one from the steps left. -/
theorem stepsLeft_le_step_absorbing {q : Sequencer} (hp : q.phase = .absorbing) :
    q.stepsLeft ≤ q.step.stepsLeft + 1 := by
  have hleft : q.stepsLeft = absorbSteps (fill q.workCount) q.rest.length := by simp [Sequencer.stepsLeft, hp]
  rw [hleft]
  cases hr : q.rest with
  | nil => simp [absorbSteps_zero]
  | cons b rest =>
    have hfill := fill_succ q.workCount
    have hlt := fill_lt q.workCount
    rw [step_absorbing hp hr, List.length_cons]
    by_cases hw : fill (q.workCount + 1#64) = 0
    · rw [absorbSteps_wrap _ _ (by omega)]
      simp [Sequencer.stepsLeft, Sequencer.absorbByte, Sequencer.stepsAfter, compressSteps, hw]
      omega
    · rw [absorbSteps_succ, show fill q.workCount + 1 = fill (q.workCount + 1#64) by omega]
      cases rest with
      | nil => simp [absorbSteps_zero]
      | cons b' rest =>
        simp [Sequencer.stepsLeft, Sequencer.absorbByte, absorbPhase, hw]
        omega

/-- A step of a compression takes at most one from the steps left. -/
theorem stepsLeft_le_step_compressing {q : Sequencer} {c : Caller} {stage : Stage}
    (hp : q.phase = .compressing c stage) : q.stepsLeft ≤ q.step.stepsLeft + 1 := by
  have hleft : q.stepsLeft = compressSteps stage q.t + q.stepsAfter c := by simp [Sequencer.stepsLeft, hp]
  rw [hleft]
  cases stage with
  | load =>
    have hafter : (q.loadStep c).stepsAfter c = q.stepsAfter c := by cases c <;> rfl
    have hnext : (q.loadStep c).stepsLeft = 65 + (q.loadStep c).stepsAfter c := rfl
    rw [step_load hp, hnext, hafter, compressSteps]
    omega
  | round =>
    have hafter : (q.roundStep c).stepsAfter c = q.stepsAfter c := by cases c <;> rfl
    rw [step_round hp, ← hafter]
    by_cases ht : q.t < 63 <;> simp [Sequencer.stepsLeft, Sequencer.roundStep, compressSteps, ht] <;> omega
  | add =>
    rw [step_add hp, compressSteps]
    cases c with
    | absorb =>
      by_cases hr : q.rest = [] <;>
        simp [Sequencer.stepsLeft, Sequencer.addStep, Sequencer.stepsAfter, absorbPhase, hr, absorbSteps_zero]
      omega
    | pad1 => simp [Sequencer.stepsLeft, Sequencer.addStep, Sequencer.stepsAfter]
    | pad2 => simp [Sequencer.stepsAfter]

/-- After PAD_80 the steps left are those of the phase that comes next (R147, R148). -/
theorem stepsLeft_afterPad80 {q : Sequencer} (h : q.p < 64) (b : Byte) :
    (q.padByte b afterPad80).stepsLeft = padSteps (q.p + 1) := by
  rcases afterPad80_cases (show q.p + 1 ≤ 64 by omega) with ⟨hp, hnext⟩ | ⟨hp, hnext⟩ | ⟨hp, -, hnext⟩ | ⟨hp, hnext⟩
  · simp [Sequencer.stepsLeft, Sequencer.padByte, hnext, padSteps, show ¬ 56 < q.p + 1 by omega]
  · rw [hp] at hnext
    simp [Sequencer.stepsLeft, Sequencer.padByte, hnext, padSteps, hp]
  · simp [Sequencer.stepsLeft, Sequencer.padByte, hnext, padSteps, hp]
  · rw [hp] at hnext
    simp [Sequencer.stepsLeft, Sequencer.padByte, hnext, padSteps, hp, compressSteps, Sequencer.stepsAfter]

/-- An internal step takes at most one from the steps left. -/
theorem stepsLeft_le_step {q : Sequencer} (h : q.OnTheWay) : q.stepsLeft ≤ q.step.stepsLeft + 1 := by
  cases hp : q.phase with
  | idle => simp [Sequencer.stepsLeft, hp]
  | done => simp [Sequencer.stepsLeft, hp]
  | absorbing => exact stepsLeft_le_step_absorbing hp
  | compressing c stage => exact stepsLeft_le_step_compressing hp
  | pad80 =>
    have hstep : q.step = q.padByte 0x80#8 afterPad80 := by simp [Sequencer.step, hp]
    rw [hstep, stepsLeft_afterPad80 (p_lt_of_pad80 h hp)]
    simp [Sequencer.stepsLeft, hp, Nat.add_comm]
  | padZeroTail =>
    by_cases hlast : q.p + 1 < 64 <;>
      simp [Sequencer.stepsLeft, Sequencer.step, hp, Sequencer.padByte, hlast, compressSteps, Sequencer.stepsAfter] <;>
      omega
  | padZero =>
    have hlt := p_lt_of_padZero h hp
    by_cases hlast : q.p + 1 < 56 <;>
      simp [Sequencer.stepsLeft, Sequencer.step, hp, Sequencer.padByte, hlast] <;> omega
  | padLen =>
    by_cases hlast : q.p + 1 < 64 <;>
      simp [Sequencer.stepsLeft, Sequencer.step, hp, Sequencer.padByte, hlast, compressSteps, Sequencer.stepsAfter] <;>
      omega

/-- `k` internal steps take at most `k` from the steps left. -/
theorem stepsLeft_le_steps {q : Sequencer} (h : q.OnTheWay) (k : Nat) :
    q.stepsLeft ≤ (Sequencer.steps k q).stepsLeft + k := by
  induction k generalizing q with
  | zero => exact Nat.le_refl _
  | succ k ih =>
    calc q.stepsLeft ≤ q.step.stepsLeft + 1 := stepsLeft_le_step h
      _ ≤ (Sequencer.steps k q.step).stepsLeft + k + 1 := Nat.succ_le_succ (ih (onTheWay_step h))

/-- The sequencer stays at DONE. -/
theorem steps_of_done {q : Sequencer} (h : q.phase = .done) (k : Nat) : Sequencer.steps k q = q := by
  induction k with
  | zero => rfl
  | succ k ih => rw [steps_succ, step_done h, ih]

/-- A sequencer that its run brings to DONE is there after exactly the steps left, and not before. -/
theorem steps_done_iff {q : Sequencer} (h : q.OnTheWay) (hrun : q.run.phase = .done) (k : Nat) :
    (Sequencer.steps k q).phase = .done ↔ q.stepsLeft ≤ k := by
  constructor
  · intro hdone
    have hle := stepsLeft_le_steps h k
    have hzero : (Sequencer.steps k q).stepsLeft = 0 := by simp [Sequencer.stepsLeft, hdone]
    omega
  · intro hle
    obtain ⟨j, rfl⟩ := Nat.exists_eq_add_of_le hle
    rw [steps_add]
    exact (congrArg Sequencer.phase (steps_of_done hrun j)).trans hrun

/-- The steps of the padding from fill position `p`: one per byte to the end of the block, a compression, and one more
block of each when the length field does not fit (R227). -/
theorem padSteps_eq {p : Nat} (h : p < 64) : 1 + padSteps (p + 1) = (64 - p) + 66 + if 56 ≤ p then 64 + 66 else 0 := by
  unfold padSteps
  split <;> split <;> omega

/-- Settles O31: the run comes to DONE, after no fewer steps than are left, since a step takes at most one of them. -/
theorem commandsTakeTheCountedInternalSteps : Obligations.CommandsTakeTheCountedInternalSteps := by
  refine ⟨fun q k hp hr => ?_, fun q k hp hcursor => ?_⟩
  · have hway : q.OnTheWay := .inl (by simp [Sequencer.inAbsorb, hp, hr])
    obtain ⟨-, hdone, -⟩ := run_absorb hp hr
    have hleft : q.stepsLeft = q.rest.length + 66 * ((q.workCount.toNat % 64 + q.rest.length) / 64) := by
      simp [Sequencer.stepsLeft, hp, absorbSteps, fill]
    rw [steps_done_iff hway hdone, hleft]
  · have hway : q.OnTheWay := .inr (by simp [Sequencer.inPadding, hp, hcursor, fill])
    obtain ⟨-, hdone⟩ := run_pad hp hcursor
    have hleft : q.stepsLeft = 1 + padSteps (q.p + 1) := by simp [Sequencer.stepsLeft, hp]
    rw [steps_done_iff hway hdone, hleft, padSteps_eq (by omega)]

/-! ### Completions and DATA_IN (R222) -/

/-- An absorb completes on the bytes it captured, whatever DATA_IN holds by then (R54, R222). -/
theorem exec_pending_absorb_storeDataIn {s t : State} {p : Pending} (hpend : s.pending = some p)
    (hcmd : IsAbsorb p.cmd) (hexec : exec p.cmd s = .next t) (v : Word) :
    exec p.cmd { s with dataIn := v } = .next { t with dataIn := v } ∧ t.dataIn = s.dataIn := by
  cases (exec_pending_absorb hpend hcmd).symm.trans hexec
  exact ⟨exec_pending_absorb (s := { s with dataIn := v }) hpend hcmd, rfl⟩

/-- Settles O28: no completion reads or writes DATA_IN. -/
theorem completionDoesNotReadDataIn : Obligations.CompletionDoesNotReadDataIn := by
  intro s t p v hpend hexec
  cases hcmd : p.cmd with
  | nop =>
    rw [hcmd] at hexec
    cases hexec
    exact ⟨rfl, rfl⟩
  | init =>
    rw [hcmd] at hexec
    cases (exec_pending_init hpend hcmd).symm.trans hexec
    exact ⟨exec_pending_init (s := { s with dataIn := v }) hpend hcmd, rfl⟩
  | absorbB b => exact hcmd ▸ exec_pending_absorb_storeDataIn hpend (.inl ⟨b, hcmd⟩) hexec v
  | absorbW n => exact hcmd ▸ exec_pending_absorb_storeDataIn hpend (.inr ⟨n, hcmd⟩) hexec v
  | finalize =>
    rw [hcmd] at hexec
    cases (exec_pending_finalize hpend hcmd).symm.trans hexec
    exact ⟨exec_pending_finalize (s := { s with dataIn := v }) hpend hcmd, rfl⟩

/-! ### The reset values (R210, R35) -/

/-- Every piece of engine state that R35 gives a value has it, and no write is held. -/
def State.AtReset (s : State) : Prop :=
  s.life = .idle ∧ s.pending = none ∧ s.held = [] ∧ s.err = false ∧ s.cause = .none ∧ s.errCmd = 0#32
    ∧ s.count = 0#64 ∧ s.dataIn = 0#32

theorem atReset_resetEngine (s : State) (level : Bool) : (s.resetEngine level).AtReset :=
  ⟨rfl, rfl, rfl, rfl, rfl, rfl, rfl, rfl⟩

/-- While the reset input is asserted the invariant gives the reset values (R210). -/
theorem atReset_of_inReset {s : State} (h : s.Inv) (hres : s.inReset = true) : s.AtReset := by
  obtain ⟨-, -, -, -, -, -, -, hreset⟩ := h
  exact hreset hres

/-- At its reset values the engine reads 0 in every register (R35, R51). -/
theorem readReg_of_atReset {s : State} (h : s.AtReset) (r : Reg) : s.readReg r = 0#32 := by
  obtain ⟨hlife, hpend, -, herr, hcause, hcmd, hcount, hdata⟩ := h
  have hsame : s.readReg r = (State.afterReset s.masters).readReg r := by
    cases r <;> simp [State.readReg, State.status, State.busy, State.errCause, State.digest, State.afterReset,
      State.reset, hlife, hpend, herr, hcause, hcmd, hcount, hdata]
  rw [hsame, allRegistersReadZeroAfterReset]

/-- The reset input stays asserted over a turn, unless a master releases it, which resets the engine (R210; log 9). -/
theorem inReset_or_release_of_turn {s t : State} (hres : s.inReset = true) (h : Turn s t) :
    t.inReset = true
    ∨ (∃ m ∈ s.masters, ∃ rest, m.program = .releaseReset :: rest) ∧ ∃ u : State, t = u.resetEngine false := by
  cases h with
  | assertReset _ _ => exact .inl rfl
  | releaseReset hm hop _ => exact .inr ⟨⟨_, hm, _, hop⟩, _, rfl⟩
  | _ => exact .inl hres

/-- A turn under reset leaves the reset values. -/
theorem atReset_of_turn {s t : State} (hinv : s.Inv) (hres : s.inReset = true) (h : Turn s t) : t.AtReset := by
  rcases inReset_or_release_of_turn hres h with hres' | ⟨-, u, rfl⟩
  · exact atReset_of_inReset (inv_of_turn hinv h) hres'
  · exact atReset_resetEngine u false

/-- Settles O58: the invariant gives the reset values while the input stays asserted, and its release sets them. -/
theorem assertedResetHoldsTheResetValues : Obligations.AssertedResetHoldsTheResetValues := by
  intro s t hinv hres hstep
  have hturn := turn_of_step hstep
  have hat := atReset_of_turn hinv hres hturn
  have reads := readReg_of_atReset hat
  obtain ⟨hlife, hpend, hheld, herr, hcause, hcmd, hcount, hdata⟩ := hat
  exact ⟨hlife, hpend, hheld, herr, hcause, hcmd, hcount, hdata, reads,
    (inReset_or_release_of_turn hres hturn).imp_right And.left⟩

theorem performOp_releaseReset_asserted {s : State} (h : s.inReset = true) (k : Nat) (m : Master)
    (rest : List HostOp) :
    performOp k m .releaseReset rest s = .next ((s.continueMaster k m rest).resetEngine false) := by
  simp [performOp, h]

/-- Releasing an input that is not asserted does nothing (R210). -/
theorem performOp_releaseReset_released {s : State} (h : s.inReset = false) (k : Nat) (m : Master)
    (rest : List HostOp) : performOp k m .releaseReset rest s = .next (s.continueMaster k m rest) := by
  simp [performOp, h]

/-- Settles O52: both changes of the reset input are `resetEngine`, and a release without an assertion is none. -/
theorem resetClearsTheEngine : Obligations.ResetClearsTheEngine := by
  intro s k m rest
  have reads (level : Bool) := readReg_of_atReset (atReset_resetEngine (s.continueMaster k m rest) level)
  refine ⟨?_, fun hres => ?_, fun hres => performOp_releaseReset_released hres k m rest⟩
  · exact ⟨_, rfl, rfl, rfl, rfl, rfl, rfl, rfl, rfl, rfl, rfl, reads true, rfl⟩
  · exact ⟨_, performOp_releaseReset_asserted hres k m rest, rfl, rfl, rfl, rfl, rfl, rfl, rfl, rfl, rfl, reads false,
      rfl⟩

/-! ### Waiting for the host (R198, R211) -/

/-- With no master that can move the state stays (R198; log 23). -/
theorem hostTurn_of_none {s : State} (h : s.readyMasters = []) : hostTurn s = .next s := by
  simp [hostTurn, h]

/-- Settles O19: under reset, and with nothing pending or held, a step is a host turn. -/
theorem idleEngineWaitsForTheHost : Obligations.IdleEngineWaitsForTheHost := by
  refine ⟨fun s k hcase hready => ?_, fun s hcase hready => ?_⟩
  · rw [step_eq_hostTurn hcase, hostTurn_of_single hready]
  · rw [step_eq_hostTurn hcase, hostTurn_of_none hready]

end Sys2Proof.Machine
end
